-- ==== Sys2Proof/Word.lean ====
section
/-!
DEFINITION. The word types of the block (00_scope.md R8, R10): bits are numbered from 0, the least significant.
-/

namespace Sys2Proof

/-- A register word, REG_W = 32 bits; also a sample pattern, SAMPLE_W = 32 (R8). -/
abbrev Word := BitVec 32

/-- A byte of IN or OUT (20_memory.md R40). -/
abbrev Byte := BitVec 8

/-- A 64-bit value: a cursor (CURSOR_W), a residual (RES_W) or a zigzag value (ZZ_W) (R8). -/
abbrev DWord := BitVec 64

/-- A nibble group, GROUP_W = 5 bits: DATA in bits 3:0, CONT in bit 4 (30_encoding.md R63). -/
abbrev Group := BitVec 5

/-- `ceil_div(a, b)` of 00_scope.md R11, for b > 0. -/
def ceilDiv (a b : Nat) : Nat := (a + b - 1) / b

end Sys2Proof
end

