-- ==== Sys2Proof/Syntax.lean ====
section
/-!
DEFINITION. The five commands of the block (30_encoding.md R57), one constructor per row of spec/opcode_table.json.
A command word carries no operand: the operand, if any, is in ARG (R56, R59).
-/

namespace Sys2Proof

/-- A command of the block. -/
inductive Instr where
  /-- ENC_INIT, 47_commands.md R109. -/
  | encInit
  /-- ENC_SAMPLE, 47_commands.md R110. -/
  | encSample
  /-- ENC_FINISH, 47_commands.md R111. -/
  | encFinish
  /-- DEC_INIT, 47_commands.md R112. -/
  | decInit
  /-- DEC_SAMPLE, 47_commands.md R113. -/
  | decSample
deriving DecidableEq, Repr

end Sys2Proof
end

