-- ==== Sys2Proof/WellFormed.lean ====
section
/-!
DEFINITION. What the spec calls a legal command word (30_encoding.md R56, R58, R60), as checks on its two fields.
The commands themselves carry no field, so every term of `Instr` is well formed: what can be ill formed is a word.
-/

namespace Sys2Proof

/-- Field OPC of a command word, bits 7:0 (R56). -/
def opcField (w : Word) : BitVec 8 := w.extractLsb' 0 8

/-- Field RSV of a command word, bits 31:8 (R56). -/
def rsvField (w : Word) : BitVec 24 := w.extractLsb' 8 24

/-- Check: RSV must be 0 (R56, R60). -/
def rsvIsZero (w : Word) : Bool := rsvField w == 0#24

/-- Check: OPC is one of 0x01 .. 0x05 (R57, R58). -/
def opcIsListed (w : Word) : Bool := decide (1 ≤ (opcField w).toNat ∧ (opcField w).toNat ≤ 5)

/-- A legal command word (R58). -/
def wordWellFormed (w : Word) : Bool := rsvIsZero w && opcIsListed w

/-- Well-formedness of a command as syntax: no command has an operand field that could be out of range (R56, R59). -/
def Instr.wellFormed : Instr → Bool
  | .encInit => true
  | .encSample => true
  | .encFinish => true
  | .decInit => true
  | .decSample => true

end Sys2Proof
end

