-- ==== Sys2Proof/Decode.lean ====
section
/-!
DEFINITION. Decoding and encoding of command words (30_encoding.md R56 to R58, R60).
Decoding is total: a word that is no legal command is rejected with a named reason, which the block records as
IllegalCommand (60_exceptions.md R120).
-/

namespace Sys2Proof

/-- Why a command word is rejected (R58, R60). -/
inductive DecodeError where
  /-- RSV, bits 31:8, is not 0. -/
  | reservedBits
  /-- OPC is 0x00 or in 0x06 .. 0xFF. -/
  | unknownOpcode
  /-- Fewer bytes were given than a command word has. -/
  | tooFewBytes
deriving DecidableEq, Repr

/-- The command an opcode names (R57); every other opcode is rejected (R60). -/
def decodeOpcode (opc : BitVec 8) : Except DecodeError Instr :=
  if opc = 0x01#8 then .ok .encInit
  else if opc = 0x02#8 then .ok .encSample
  else if opc = 0x03#8 then .ok .encFinish
  else if opc = 0x04#8 then .ok .decInit
  else if opc = 0x05#8 then .ok .decSample
  else .error .unknownOpcode

/-- Decoding of a word written to CMD (R58). -/
def decode (w : Word) : Except DecodeError Instr :=
  if rsvField w ≠ 0#24 then .error .reservedBits else decodeOpcode (opcField w)

/-- The opcode of a command (R57). -/
def opcodeOf : Instr → BitVec 8
  | .encInit => 0x01#8
  | .encSample => 0x02#8
  | .encFinish => 0x03#8
  | .decInit => 0x04#8
  | .decSample => 0x05#8

/-- The command word of a command: `zext_32(OPC)` (R57). -/
def encode (i : Instr) : Word := (opcodeOf i).zeroExtend 32

/-- Byte lane `k` of a register word: lane 0 is bits 7:0 (20_memory.md R44). -/
def laneByte (w : Word) (k : Nat) : Byte := w.extractLsb' (8 * k) 8

/-- The four byte lanes of a register word, lane 0 first (20_memory.md R44). -/
def wordLanes (w : Word) : List Byte := [laneByte w 0, laneByte w 1, laneByte w 2, laneByte w 3]

/-- The register word whose byte lanes are the four bytes, lane 0 first (20_memory.md R44). -/
def wordOfLanes (b0 b1 b2 b3 : Byte) : Word := b3 ++ b2 ++ b1 ++ b0

/-- Decoding of a sequence of bytes, lane 0 of the first word first: the command and the bytes after its word. -/
def decodeBytes : List Byte → Except DecodeError (Instr × List Byte)
  | b0 :: b1 :: b2 :: b3 :: rest => (decode (wordOfLanes b0 b1 b2 b3)).map fun i => (i, rest)
  | _ => .error .tooFewBytes

/-- The command word whose bits are `w` below bit `nbits` and 0 above (spec/opcode_table.json numbers bit 0 as the
least significant bit of the word). -/
def tableWord (nbits w : Nat) : Word := BitVec.ofNat 32 (w % 2 ^ nbits)

/-- What the decoder reads from an instruction of the opcode table given by its bits. A command word has 32 bits
(R56), so a longer instruction does not exist. -/
def decodeTableWord (nbits w : Nat) : Option Instr :=
  if nbits ≤ 32 then
    match decodeBytes (wordLanes (tableWord nbits w)) with
    | .ok (i, _) => some i
    | .error _ => none
  else none

end Sys2Proof
end

