-- ==== Sys2Proof/Config.lean ====
section
/-!
DEFINITION. The parameters of the block (00_scope.md R8, R9) and the values the spec leaves free (20_memory.md R49).
-/

namespace Sys2Proof

/-- ZZ_LIMIT_BITS: a zigzag value must be below 2^34 (R8). -/
def Config.zzLimitBits : Nat := 34

/-- GROUP_W: bits in one group (R8). -/
def Config.groupW : Nat := 5

/-- DATA_W: data bits in one group (R8). -/
def Config.dataW : Nat := 4

/-- MAX_GROUPS: the most groups one codeword may have (R8). -/
def Config.maxGroups : Nat := 9

/-- IN_CAP of `State.reset`. DESIGN CHOICE (entry 1), unsafe for a claim about `State.reset` alone: R9 leaves the
value open; 16 is the value the programs of 95_test_vectors.md section 3 start with. `State.resetWith` takes any value. -/
def Config.inCap : Word := 16#32

/-- OUT_CAP of `State.reset`. DESIGN CHOICE (entry 1), as `Config.inCap`. -/
def Config.outCap : Word := 16#32

/-- FREE VALUE (entry 4), safe: the byte IN[j] holds while nothing has been written to it (R49, 93 S1: any value). -/
opaque Config.inAtPowerOn : Nat → Byte

/-- FREE VALUE (entry 4), safe: the byte OUT[j] holds while nothing has been written to it (R49, 93 S2: any value). -/
opaque Config.outAtPowerOn : Nat → Byte

end Sys2Proof
end

