-- ==== Sys2Proof/Machine/State.lean ====
section
/-!
DEFINITION. The state of the machine (10_state.md R15): every register and field of the block, its two memories, and the
model's own record of the host (entries 2, 3, 5).
-/

namespace Sys2Proof.Machine

/-- E_STATE (10_state.md R22). -/
inductive EState where
  /-- 0: no encoder session since reset. -/
  | idle
  /-- 1: an encoder session accepts samples. -/
  | opened
  /-- 2: ENC_FINISH ended the session. -/
  | closed
  /-- 3: the session raised an error. -/
  | failed
deriving DecidableEq, Repr

/-- D_STATE (10_state.md R27). -/
inductive DState where
  /-- 0: no decoder session since reset. -/
  | idle
  /-- 1: a decoder session accepts DEC_SAMPLE. -/
  | active
  /-- 2: the session decoded all D_N samples. -/
  | complete
  /-- 3: the session raised an error. -/
  | failed
deriving DecidableEq, Repr

/-- The error codes 0 to 7 of E_ERR, D_ERR and CMD_ERR (60_exceptions.md R118). -/
inductive ErrCode where
  | noError
  | invalidSampleCount
  | insufficientData
  | integerOverflow
  | outputOverflow
  | sequenceError
  | invalidLength
  | illegalCommand
deriving DecidableEq, Repr

/-- The session an error is recorded in: the E of `raise E(code)` (00_scope.md R12). -/
inductive Session where
  | enc
  | dec
deriving DecidableEq, Repr

/-- A memory of bytes: the bytes written, by index, strictly rising. An index that is not listed has no value written. -/
abbrev Memory := List Host.Cell

/-- The canonical form of a memory: indices strictly rising. An unlisted index reads as no value (`Memory.read`), which
no entry can equal, so this is the whole of the form. -/
abbrev Memory.wf (m : Memory) : Prop := m.Pairwise fun a b => a.1 < b.1

/-- One access of the host, or the assertion of reset (R5, R18, R40, R61, 70_reset_and_hazards.md R131). Register
accesses are 32 bits wide by construction (R19); `off` is the byte offset in the 256-byte window. -/
inductive HostOp where
  /-- WR: the host writes the register at an offset; offset 0x00 is CMD and issues a command. -/
  | regWrite (off : BitVec 8) (v : Word)
  /-- RD: the host reads the register at an offset. -/
  | regRead (off : BitVec 8)
  /-- WRB IN[j], b. -/
  | inWrite (j : Nat) (b : Byte)
  /-- The host reads IN[j]. -/
  | inRead (j : Nat)
  /-- RDB OUT[j]. -/
  | outRead (j : Nat)
  /-- A host write to OUT[j], which the spec does not admit (R40). -/
  | outWrite (j : Nat) (b : Byte)
  /-- Reset is asserted (R131). -/
  | reset
deriving DecidableEq, Repr

/-- What one read of the host returned (70_reset_and_hazards.md R145). -/
inductive HostSeen where
  | reg (off : BitVec 8) (v : Word)
  | inByte (j : Nat) (b : Byte)
  | outByte (j : Nat) (b : Byte)
deriving DecidableEq, Repr

/-- The state of the block (10_state.md R15), the constant capacity registers (R18), and the model's record of the host. -/
structure State where
  /-- ARG, 0x04 (R20). -/
  arg : Word
  /-- RESULT, 0x08 (R21). -/
  result : Word
  /-- E_STATE (R22). -/
  eState : EState
  /-- E_ERR (R23). -/
  eErr : ErrCode
  /-- E_PREV, 0x24 (R24). -/
  ePrev : Word
  /-- W_POS, 0x2C and 0x30 (R25). -/
  wPos : DWord
  /-- OUT_LEN, 0x18 (R26). -/
  outLen : Word
  /-- D_STATE (R27). -/
  dState : DState
  /-- D_ERR (R28). -/
  dErr : ErrCode
  /-- D_PREV, 0x28 (R29). -/
  dPrev : Word
  /-- R_POS, 0x34 and 0x38 (R30). -/
  rPos : DWord
  /-- D_LIMIT, 0x3C and 0x40 (R31). -/
  dLimit : DWord
  /-- D_N, 0x1C (R32). -/
  dN : Word
  /-- D_DONE, 0x20 (R33). -/
  dDone : Word
  /-- IN_LEN, 0x14 (R34). -/
  inLen : Word
  /-- CMD_ERR (R36). -/
  cmdErr : ErrCode
  /-- ERR_LOG, 0x10 (R37). -/
  errLog : Word
  /-- CAP_IN, 0x44: the parameter IN_CAP (R9, R18); no step writes it. -/
  capIn : Word
  /-- CAP_OUT, 0x48: the parameter OUT_CAP (R9, R18); no step writes it. -/
  capOut : Word
  /-- IN (20_memory.md R40). -/
  inMem : Memory
  /-- OUT (20_memory.md R40). -/
  outMem : Memory
  /-- The model's own: indices of IN the host has written since reset, strictly rising (20_memory.md R50; entry 5). -/
  inWritten : List Nat
  /-- The model's own: the host's accesses still to be performed, first one first (R17, R61; entry 2). -/
  hostOps : List HostOp
  /-- The model's own: what the host's reads returned, oldest first (R145; entry 3). -/
  hostSeen : List HostSeen
deriving DecidableEq, Repr

/-- Why the machine stops with a fault. -/
inductive Fault where
  /-- `UnwrittenInRead` (20_memory.md R50, 93 S3): raised by DEC_SAMPLE when it reads a bit of IN[j] and the host has not
  written IN[j] since reset. Safe: the hardware goes on with some value, the model stops. -/
  | unwrittenInRead (j : Nat)
deriving DecidableEq, Repr

/-- Why the model has no step. -/
inductive Refusal where
  /-- An instruction without a meaning, rejected by its arm of `exec`. Safe. No arm does so. -/
  | notModelled (mnemonic : String)
  /-- Raised by a host register access whose offset is not a multiple of 4 (R19, 93 S4: refuse). Safe. -/
  | misalignedRegisterAccess (off : BitVec 8)
  /-- Raised by a host write to OUT (R40, 93 S5: refuse). Safe. -/
  | hostWriteToOut (j : Nat)
  /-- Raised by a host access to IN or OUT at an index at or beyond its capacity (R40, 93 S6: refuse). Safe. -/
  | bufferIndexOutOfRange (j : Nat)
deriving DecidableEq, Repr

/-- The state after reset for given capacities (70_reset_and_hazards.md R132): every register 0 but the two capacity
registers, nothing written to IN or OUT, no host access pending. -/
def State.resetWith (inCap outCap : Word) : State where
  arg := 0#32
  result := 0#32
  eState := .idle
  eErr := .noError
  ePrev := 0#32
  wPos := 0#64
  outLen := 0#32
  dState := .idle
  dErr := .noError
  dPrev := 0#32
  rPos := 0#64
  dLimit := 0#64
  dN := 0#32
  dDone := 0#32
  inLen := 0#32
  cmdErr := .noError
  errLog := 0#32
  capIn := inCap
  capOut := outCap
  inMem := []
  outMem := []
  inWritten := []
  hostOps := []
  hostSeen := []

/-- The machine right after reset (R132), with the capacities of Config (entry 1). -/
def State.reset : State := State.resetWith Config.inCap Config.outCap

end Sys2Proof.Machine
end

