-- ==== Sys2Proof/Machine/Flags.lean ====
section
/-!
DEFINITION. The status fields of the block: the codes of the session states and errors, the STATUS word (10_state.md R35)
and the error history ERR_LOG (R37). The block has no arithmetic flags.
-/

namespace Sys2Proof.Machine

/-- The 2-bit code of E_STATE (R22). -/
def EState.code : EState → BitVec 2
  | .idle => 0#2
  | .opened => 1#2
  | .closed => 2#2
  | .failed => 3#2

/-- The 2-bit code of D_STATE (R27). -/
def DState.code : DState → BitVec 2
  | .idle => 0#2
  | .active => 1#2
  | .complete => 2#2
  | .failed => 3#2

/-- The 3-bit error code (60_exceptions.md R118). -/
def ErrCode.code : ErrCode → BitVec 3
  | .noError => 0#3
  | .invalidSampleCount => 1#3
  | .insufficientData => 2#3
  | .integerOverflow => 3#3
  | .outputOverflow => 4#3
  | .sequenceError => 5#3
  | .invalidLength => 6#3
  | .illegalCommand => 7#3

/-- STATUS (R35): E_STATE 1:0, D_STATE 3:2, E_ERR 6:4, D_ERR 10:8, CMD_ERR 14:12, every other bit 0. -/
def State.status (s : State) : Word :=
  0#17 ++ s.cmdErr.code ++ 0#1 ++ s.dErr.code ++ 0#1 ++ s.eErr.code ++ s.dState.code ++ s.eState.code

/-- The ERR_LOG mask of one error code: bit `code` (R37). -/
def ErrCode.logBit (c : ErrCode) : Word := 1#32 <<< c.code.toNat

/-- `ERR_LOG[code] <- 1` (60_exceptions.md R119, R120). -/
def State.logError (s : State) (c : ErrCode) : State := { s with errLog := s.errLog ||| c.logBit }

end Sys2Proof.Machine
end

