-- ==== Sys2Proof/Machine/Ops.lean ====
section
/-!
DEFINITION. The named operations over memory and registers, recording an error (60_exceptions.md R119, R120) and what
clears one (R125), and the reset step (70_reset_and_hazards.md R131).
-/

namespace Sys2Proof.Machine

/-! ### Bytes of a memory -/

/-- The byte written at index `j`, or no value where nothing has been written. -/
def Memory.read : Memory → Nat → Option Byte
  | [], _ => none
  | c :: m, j => if c.1 = j then some c.2 else Memory.read m j

/-- `MemWrite(_, j, 1, b)` (00_scope.md R12), keeping the indices strictly rising. -/
def Memory.write : Memory → Nat → Byte → Memory
  | [], j, b => [(j, b)]
  | c :: m, j, b =>
    if j < c.1 then (j, b) :: c :: m
    else if j = c.1 then (j, b) :: m
    else c :: Memory.write m j b

/-- Byte j of OUT: what was last written there, else its free power-on value (20_memory.md R49; entry 4). -/
def outByteOf (m : Memory) (j : Nat) : Byte := (m.read j).getD (Config.outAtPowerOn j)

/-- Byte j of OUT as the host and the core see it (20_memory.md R54). -/
def State.outByte (s : State) (j : Nat) : Byte := outByteOf s.outMem j

/-- Byte j of IN as the host sees it: what was last written there, else its free power-on value (R49; entry 4). -/
def State.inByte (s : State) (j : Nat) : Byte := (s.inMem.read j).getD (Config.inAtPowerOn j)

/-- Adds an index to a strictly rising list of indices. -/
def insertIndex : List Nat → Nat → List Nat
  | [], j => [j]
  | k :: ks, j => if j < k then j :: k :: ks else if j = k then k :: ks else k :: insertIndex ks j

/-- The host writes byte `b` to IN[j] (20_memory.md R40). -/
def State.hostWriteIn (s : State) (j : Nat) (b : Byte) : State :=
  { s with inMem := s.inMem.write j b, inWritten := insertIndex s.inWritten j }

/-- `StreamBit(B, k)` of a byte buffer given by its bytes (20_memory.md R43). -/
def streamBit (byteAt : Nat → Byte) (k : Nat) : Bool := (byteAt (k / 8)).getLsbD (k % 8)

/-! ### How a unit of the block ends -/

/-- How a unit operation ends inside a command: with a value, by `raise E(code)` (R12), or by the model fault (R50). -/
inductive Res (α : Type) where
  | ok (a : α)
  | raised (c : ErrCode)
  | faulted (f : Fault)
deriving DecidableEq, Repr

/-- `;` of the pseudocode (00_scope.md R13): the second operation runs only when the first gave a value. -/
def Res.bind {α β : Type} : Res α → (α → Res β) → Res β
  | .ok a, f => f a
  | .raised c, _ => .raised c
  | .faulted e, _ => .faulted e

/-! ### Recording an error -/

/-- `CMD_ERR <- 0`, what every legal command does before it runs (10_state.md R36, 47_commands.md R108). -/
def State.beginCommand (s : State) : State := { s with cmdErr := .noError }

/-- `raise E(code)` (60_exceptions.md R119): `s` is the state with the writes that commit all the same (CMD_ERR <- 0, and
the "init" writes of DEC_INIT). The session fails with the code, and ERR_LOG gets its bit. -/
def State.raise (s : State) (e : Session) (c : ErrCode) : State :=
  match e with
  | .enc => State.logError { s with eState := .failed, eErr := c } c
  | .dec => State.logError { s with dState := .failed, dErr := c } c

/-- `raise CMD(IllegalCommand)` (60_exceptions.md R120). -/
def State.raiseIllegalCommand (s : State) : State :=
  State.logError { s with cmdErr := .illegalCommand } .illegalCommand

/-- What clears an encoder error: ENC_INIT makes E_ERR 0 and E_STATE OPEN (60_exceptions.md R125). ERR_LOG keeps its bits. -/
def State.openEncoder (s : State) : State := { s with eState := .opened, eErr := .noError }

/-- How a command that ran a unit operation ends: its writes commit, or the error is recorded, or the model faults (R13). -/
def Res.finish {α : Type} (r : Res α) (s : State) (e : Session) (commit : α → State) :
    Host.Outcome State Fault Refusal :=
  match r with
  | .ok a => .next (commit a)
  | .raised c => .next (s.raise e c)
  | .faulted f => .fault f

/-! ### Reset -/

/-- The reset step (70_reset_and_hazards.md R131): every register gets its value of R132, IN and OUT keep their bytes, and
no byte of IN counts as written since reset (20_memory.md R50). The host's own record is not the block's and stays. -/
def State.afterReset (s : State) : State :=
  { State.resetWith s.capIn s.capOut with
    inMem := s.inMem
    outMem := s.outMem
    hostOps := s.hostOps
    hostSeen := s.hostSeen }

end Sys2Proof.Machine
end

