-- ==== Sys2Proof/Machine/BitReader.lean ====
section
/-!
DEFINITION. The bit reader (46_bit_reader.md), over a working copy of R_POS.
-/

namespace Sys2Proof.Machine

/-- BR_INIT (R101): R_POS <- 0 and D_LIMIT <- 8 * len. -/
def State.brInit (s : State) (len : Word) : State :=
  { s with rPos := 0#64, dLimit := BitVec.ofNat 64 (8 * len.toNat) }

/-- BR_READ_BIT (R102): stream bit k of IN. A byte the host has not written since reset faults (20_memory.md R50). -/
def brReadBit (s : State) (k : Nat) : Res Bool :=
  if s.inWritten.contains (k / 8) then .ok (streamBit s.inByte k) else .faulted (.unwrittenInRead (k / 8))

/-- The loop of BR_READ_GROUP over the bit indices j still to read: `g <- g OR (bit << j)` (R103). -/
def brGather (s : State) (pos : Nat) : List Nat → Group → Res Group
  | [], g => .ok g
  | j :: js, g => (brReadBit s (pos + j)).bind fun b => brGather s pos js (g ||| ((BitVec.ofBool b).zeroExtend 5 <<< j))

/-- BR_READ_GROUP at the working cursor `pos` (R103): the limit check comes before any bit is read. -/
def brReadGroup (s : State) (pos : Nat) : Res Group :=
  if pos + Config.groupW > s.dLimit.toNat then .raised .insufficientData else brGather s pos [0, 1, 2, 3, 4] 0#5

end Sys2Proof.Machine
end

