-- ==== Sys2Proof/Machine/GroupCoder.lean ====
section
/-!
DEFINITION. The nibble-group encoder (43_nibble_encoder.md) and decoder (44_nibble_decoder.md).
-/

namespace Sys2Proof.Machine

/-- Field DATA of a group, bits 3:0 (30_encoding.md R63). -/
def groupData (g : Group) : BitVec 4 := g.extractLsb' 0 4

/-- Field CONT of a group, bit 4 (30_encoding.md R63). -/
def groupCont (g : Group) : Bool := g.getLsbD 4

/-- A group from its two fields: `(cont << 4) OR d` (30_encoding.md R63, 43_nibble_encoder.md R84). -/
def mkGroup (cont : Bool) (d : BitVec 4) : Group := BitVec.ofBool cont ++ d

/-- The loop of NGE_GROUPS on the remaining value (R84), for at most `fuel` groups. -/
def ngeLoop : Nat → DWord → List Group
  | 0, _ => []
  | fuel + 1, v =>
    let d : BitVec 4 := v.extractLsb' 0 4
    let v' := v >>> Config.dataW
    if v' = 0#64 then [mkGroup false d] else mkGroup true d :: ngeLoop fuel v'

/-- NGE_GROUPS (R84). A 64-bit value has 16 nibbles, so 16 rounds end the loop for every value. -/
def ngeGroups (u : DWord) : List Group := ngeLoop 16 u

/-- The loop of NGD_DECODE (R89): `rounds` groups may still be read, group `i` is read next at `pos`, `u` holds the
groups before it. With no round left a tenth group would be needed: IntegerOverflow. -/
def ngdLoop (s : State) : (rounds i pos : Nat) → (u : DWord) → Res (DWord × Nat)
  | 0, _, _, _ => .raised .integerOverflow
  | rounds + 1, i, pos, u =>
    (brReadGroup s pos).bind fun g =>
      let u' := u ||| ((groupData g).zeroExtend 64 <<< (Config.dataW * i))
      if groupCont g = false then .ok (u', pos + Config.groupW)
      else ngdLoop s rounds (i + 1) (pos + Config.groupW) u'

/-- NGD_DECODE at R_POS (R89): the zigzag value and the working copy of the cursor after its last group. -/
def ngdDecode (s : State) : Res (DWord × Nat) := ngdLoop s Config.maxGroups 0 s.rPos.toNat 0#64

end Sys2Proof.Machine
end

