-- ==== Sys2Proof/Machine/Operands.lean ====
section
/-!
DEFINITION. Operand assembly (30_encoding.md R59): the operand of a command is in ARG, read as two's complement
(00_scope.md R10, R11). Nothing is scaled, shifted or zero-extended.
-/

namespace Sys2Proof.Machine

/-- The sample pattern ENC_SAMPLE reads from ARG; the sample is `sint_32(ARG)` (R59, 10_state.md R20). -/
def State.sampleOperand (s : State) : Word := s.arg

/-- The count `n = sint_32(ARG)` that DEC_INIT reads (R59, 90_conflicts.md C4). -/
def State.countOperand (s : State) : Int := s.arg.toInt

end Sys2Proof.Machine
end

