-- ==== Sys2Proof/Machine/Predictor.lean ====
section
/-!
DEFINITION. The predictor (41_predictor.md): first order, one context register per session.
-/

namespace Sys2Proof.Machine

/-- PRED_RESIDUAL (R73): the exact difference of two signed 32-bit samples, as a 64-bit signed value. -/
def predResidual (sample prev : Word) : DWord := BitVec.ofInt 64 (sample.toInt - prev.toInt)

/-- PRED_RECONSTRUCT (R75): the exact sum of the context and the residual; IntegerOverflow outside 32 bits. -/
def predReconstruct (prev : Word) (r : DWord) : Res Word :=
  let t := prev.toInt + r.toInt
  if t < -2 ^ 31 ∨ t > 2 ^ 31 - 1 then .raised .integerOverflow else .ok (BitVec.ofInt 32 t)

end Sys2Proof.Machine
end

