-- ==== Sys2Proof/Machine/Zigzag.lean ====
section
/-!
DEFINITION. The zigzag mapper (42_zigzag.md): two functions on 64-bit patterns and one range check.
-/

namespace Sys2Proof.Machine

/-- ZZ_TO_UNSIGNED (R78): `wrap_64(r << 1) XOR wrap_64(r >>a 63)`. -/
def zzToUnsigned (r : DWord) : DWord := (r <<< 1) ^^^ (r.sshiftRight 63)

/-- ZZ_RANGE_CHECK (R80): IntegerOverflow for u ≥ 2^34. -/
def zzRangeCheck (u : DWord) : Res Unit :=
  if u.toNat ≥ 2 ^ Config.zzLimitBits then .raised .integerOverflow else .ok ()

/-- ZZ_TO_SIGNED (R81): `(u >>l 1) XOR wrap_64(-(u AND 1))`, read as signed. -/
def zzToSigned (u : DWord) : DWord := (u >>> 1) ^^^ (-(u &&& 1#64))

end Sys2Proof.Machine
end

