-- ==== Sys2Proof/Machine/Decoder.lean ====
section
/-!
DEFINITION. The decoder session commands (47_commands.md R112, R113).
-/

namespace Sys2Proof.Machine

/-- The "init" writes of DEC_INIT, which commit even when it raises (R112, 60_exceptions.md R119). -/
def State.decInitWrites (s : State) : State :=
  { s with
    dN := s.arg
    dErr := .noError
    dPrev := 0#32
    dDone := 0#32
    rPos := 0#64
    dLimit := 0#64 }

/-- DEC_INIT (R112): accepted in every D_STATE. -/
def execDecInit (s : State) : Host.Outcome State Fault Refusal :=
  let n := s.countOperand
  let s := s.beginCommand.decInitWrites
  if n < 0 then .next (s.raise .dec .invalidSampleCount)
  else if n = 0 then .next { s with dState := .complete }
  else if s.inLen.toNat > s.capIn.toNat then .next (s.raise .dec .invalidLength)
  else .next { s.brInit s.inLen with dState := .active }

/-- Steps 1 to 4 of DEC_SAMPLE (R113): the working copy of R_POS and the sample, or the error met first (R122). -/
def decodeSample (s : State) : Res (Nat × Word) :=
  (ngdDecode s).bind fun (u, pos) =>
    (zzRangeCheck u).bind fun _ =>
      (predReconstruct s.dPrev (zzToSigned u)).bind fun smp => .ok (pos, smp)

/-- The commit of DEC_SAMPLE (R113): cursor, context, result and count, and COMPLETE at the last sample. -/
def State.commitSample (s : State) (pos : Nat) (smp : Word) : State :=
  let done := s.dDone + 1#32
  { s with
    rPos := BitVec.ofNat 64 pos
    dPrev := smp
    result := smp
    dDone := done
    dState := if (done.toNat : Int) = s.dN.toInt then .complete else s.dState }

/-- DEC_SAMPLE (R113). -/
def execDecSample (s : State) : Host.Outcome State Fault Refusal :=
  let s := s.beginCommand
  match s.dState with
  | .failed => .next s
  | .idle => .next (s.raise .dec .sequenceError)
  | .complete => .next (s.raise .dec .sequenceError)
  | .active => (decodeSample s).finish s .dec fun (pos, smp) => s.commitSample pos smp

end Sys2Proof.Machine
end

