-- ==== Sys2Proof/Machine/BitWriter.lean ====
section
/-!
DEFINITION. The bit writer (45_bit_writer.md): its cursor W_POS and OUT.
-/

namespace Sys2Proof.Machine

/-- What the bit writer changes while it writes: W_POS and OUT. -/
structure Writer where
  pos : DWord
  out : Memory
deriving DecidableEq, Repr

/-- The bit writer's part of the state. -/
def State.writer (s : State) : Writer := ⟨s.wPos, s.outMem⟩

/-- BW_INIT (R93). OUT is not cleared (20_memory.md R49). -/
def State.bwInit (s : State) : State := { s with wPos := 0#64, outLen := 0#32 }

/-- The read-modify-write of BW_WRITE_BIT on one byte (R94): bit `i` becomes `b`. -/
def setBitOf (byte : Byte) (i : Nat) (b : Bool) : Byte :=
  (byte &&& ~~~(1#8 <<< i)) ||| ((BitVec.ofBool b).zeroExtend 8 <<< i)

/-- BW_WRITE_BIT (R94): a new byte starts at zero; stream bit W_POS becomes `b`; W_POS advances by one. -/
def bwWriteBit (w : Writer) (b : Bool) : Writer :=
  let p := w.pos.toNat
  let out := if p % 8 = 0 then w.out.write (p / 8) 0x00#8 else w.out
  let byte := outByteOf out (p / 8)
  ⟨BitVec.ofNat 64 (p + 1), out.write (p / 8) (setBitOf byte (p % 8) b)⟩

/-- BW_WRITE_GROUP (R95): g[0] first, CONT last. -/
def bwWriteGroup (w : Writer) (g : Group) : Writer :=
  [0, 1, 2, 3, 4].foldl (fun w j => bwWriteBit w (g.getLsbD j)) w

/-- The emission of a codeword (43_nibble_encoder.md R85): its groups in index order. -/
def bwWriteGroups (w : Writer) (gs : List Group) : Writer := gs.foldl bwWriteGroup w

/-- BW_CAPACITY (R96): OutputOverflow when `nbits` more bits do not fit in OUT. -/
def bwCapacity (s : State) (nbits : Nat) : Res Unit :=
  if ceilDiv (s.wPos.toNat + nbits) 8 > s.capOut.toNat then .raised .outputOverflow else .ok ()

/-- BW_FINISH (R98): OUT_LEN <- ceil_div(W_POS, 8). No OUT byte is written. -/
def State.bwFinish (s : State) : State := { s with outLen := BitVec.ofNat 32 (ceilDiv s.wPos.toNat 8) }

end Sys2Proof.Machine
end

