-- ==== Sys2Proof/Machine/Encoder.lean ====
section
/-!
DEFINITION. The encoder session commands (47_commands.md R109 to R111).
-/

namespace Sys2Proof.Machine

/-- ENC_INIT (R109): accepted in every E_STATE. -/
def execEncInit (s : State) : Host.Outcome State Fault Refusal :=
  .next { s.beginCommand.openEncoder.bwInit with ePrev := 0#32 }

/-- Steps 1 to 5 of ENC_SAMPLE (R110): the writer after the codeword of the sample, or the error met first (R122). -/
def encodeSample (s : State) : Res Writer :=
  let u := zzToUnsigned (predResidual s.sampleOperand s.ePrev)
  (zzRangeCheck u).bind fun _ =>
    let gs := ngeGroups u
    (bwCapacity s (Config.groupW * gs.length)).bind fun _ =>
      .ok (bwWriteGroups s.writer gs)

/-- ENC_SAMPLE (R110). -/
def execEncSample (s : State) : Host.Outcome State Fault Refusal :=
  let s := s.beginCommand
  match s.eState with
  | .failed => .next s
  | .idle => .next (s.raise .enc .sequenceError)
  | .closed => .next (s.raise .enc .sequenceError)
  | .opened =>
    (encodeSample s).finish s .enc fun w => { s with wPos := w.pos, outMem := w.out, ePrev := s.sampleOperand }

/-- ENC_FINISH (R111). -/
def execEncFinish (s : State) : Host.Outcome State Fault Refusal :=
  let s := s.beginCommand
  match s.eState with
  | .failed => .next s
  | .idle => .next (s.raise .enc .sequenceError)
  | .closed => .next (s.raise .enc .sequenceError)
  | .opened => .next { s.bwFinish with eState := .closed }

end Sys2Proof.Machine
end

