-- ==== Sys2Proof/Machine/Registers.lean ====
section
/-!
DEFINITION. The host's register window (10_state.md R18): which register stands at which offset, what a host read
returns, and what a host write to a register other than CMD does.
-/

namespace Sys2Proof.Machine

/-- Offset 0x00, CMD (R18). -/
def cmdOffset : BitVec 8 := 0x00#8

/-- Offset 0x04, ARG (R18). -/
def argOffset : BitVec 8 := 0x04#8

/-- Offset 0x08, RESULT (R18). -/
def resultOffset : BitVec 8 := 0x08#8

/-- Offset 0x0C, STATUS (R18). -/
def statusOffset : BitVec 8 := 0x0C#8

/-- Offset 0x14, IN_LEN (R18). -/
def inLenOffset : BitVec 8 := 0x14#8

/-- Offset 0x18, OUT_LEN (R18). -/
def outLenOffset : BitVec 8 := 0x18#8

/-- The registers of the window, under the manual's names (R18). -/
inductive Reg where
  | cmd | arg | result | status | errLog | inLen | outLen | dN | dDone | ePrev | dPrev
  | wPosLo | wPosHi | rPosLo | rPosHi | dLimitLo | dLimitHi | capIn | capOut
deriving DecidableEq, Repr

/-- The register at a byte offset of the window; none for a reserved offset (R18). -/
def regAt (off : BitVec 8) : Option Reg :=
  match off.toNat with
  | 0x00 => some .cmd
  | 0x04 => some .arg
  | 0x08 => some .result
  | 0x0C => some .status
  | 0x10 => some .errLog
  | 0x14 => some .inLen
  | 0x18 => some .outLen
  | 0x1C => some .dN
  | 0x20 => some .dDone
  | 0x24 => some .ePrev
  | 0x28 => some .dPrev
  | 0x2C => some .wPosLo
  | 0x30 => some .wPosHi
  | 0x34 => some .rPosLo
  | 0x38 => some .rPosHi
  | 0x3C => some .dLimitLo
  | 0x40 => some .dLimitHi
  | 0x44 => some .capIn
  | 0x48 => some .capOut
  | _ => none

/-- Bits 31:0 of a 64-bit register, its _LO half (R18). -/
def loHalf (v : DWord) : Word := v.extractLsb' 0 32

/-- Bits 63:32 of a 64-bit register, its _HI half (R18). -/
def hiHalf (v : DWord) : Word := v.extractLsb' 32 32

/-- What a host read of a register returns (R18). Reading has no side effect. -/
def State.readReg (s : State) : Reg → Word
  | .cmd => 0#32
  | .arg => s.arg
  | .result => s.result
  | .status => s.status
  | .errLog => s.errLog
  | .inLen => s.inLen
  | .outLen => s.outLen
  | .dN => s.dN
  | .dDone => s.dDone
  | .ePrev => s.ePrev
  | .dPrev => s.dPrev
  | .wPosLo => loHalf s.wPos
  | .wPosHi => hiHalf s.wPos
  | .rPosLo => loHalf s.rPos
  | .rPosHi => hiHalf s.rPos
  | .dLimitLo => loHalf s.dLimit
  | .dLimitHi => hiHalf s.dLimit
  | .capIn => s.capIn
  | .capOut => s.capOut

/-- What a host read at an offset returns: a reserved offset reads 0 (R18). -/
def State.readOffset (s : State) (off : BitVec 8) : Word :=
  match regAt off with
  | some r => s.readReg r
  | none => 0#32

/-- A host write at an offset other than CMD: ARG and IN_LEN take it, every other register and every reserved offset
ignores it (R18, R20, R34). -/
def State.writeOffset (s : State) (off : BitVec 8) (v : Word) : State :=
  if off = argOffset then { s with arg := v }
  else if off = inLenOffset then { s with inLen := v }
  else s

end Sys2Proof.Machine
end

