-- ==== Sys2Proof/Machine/HostAccess.lean ====
section
/-!
DEFINITION. What one access of the host does, a write to CMD among them (47_commands.md R108), and how a write to CMD is
put at the head of the host's accesses.
-/

namespace Sys2Proof.Machine

/-- Only register accesses aligned to 4 bytes are admitted (10_state.md R19). -/
def offsetAligned (off : BitVec 8) : Bool := off.toNat % 4 == 0

/-- A host write of the word `w` to CMD: one atomic core step (30_encoding.md R58, 47_commands.md R108). -/
def issue (w : Word) (s : State) : Host.Outcome State Fault Refusal :=
  match decode w with
  | .error _ => .next s.raiseIllegalCommand
  | .ok i => exec i s

/-- Records what a host read returned (70_reset_and_hazards.md R145). -/
def State.seen (s : State) (o : HostSeen) : State := { s with hostSeen := s.hostSeen ++ [o] }

/-- One access of the host. An access the spec does not admit is refused by name (10_state.md R19, 20_memory.md R40,
93 S4 to S6). -/
def perform (op : HostOp) (s : State) : Host.Outcome State Fault Refusal :=
  match op with
  | .regWrite off v =>
    if offsetAligned off = false then .refused (.misalignedRegisterAccess off)
    else if off = cmdOffset then issue v s
    else .next (s.writeOffset off v)
  | .regRead off =>
    if offsetAligned off = false then .refused (.misalignedRegisterAccess off)
    else .next (s.seen (.reg off (s.readOffset off)))
  | .inWrite j b =>
    if j < s.capIn.toNat then .next (s.hostWriteIn j b) else .refused (.bufferIndexOutOfRange j)
  | .inRead j =>
    if j < s.capIn.toNat then .next (s.seen (.inByte j (s.inByte j))) else .refused (.bufferIndexOutOfRange j)
  | .outRead j =>
    if j < s.capOut.toNat then .next (s.seen (.outByte j (s.outByte j))) else .refused (.bufferIndexOutOfRange j)
  | .outWrite j _ => .refused (.hostWriteToOut j)
  | .reset => .next s.afterReset

/-- The host's next access and the state without it (R51): one access at a time, in program order. With no access pending
nothing happens, for nothing but the host makes the block step (00_scope.md R5). -/
def hostStep (s : State) : Host.Outcome State Fault Refusal :=
  match s.hostOps with
  | [] => .next s
  | op :: ops => perform op { s with hostOps := ops }

/-- The state with a write of `w` to CMD as the host's next access. -/
def State.withCommand (s : State) (w : Word) : State :=
  { s with hostOps := .regWrite cmdOffset w :: s.hostOps }

end Sys2Proof.Machine
end

