-- ==== Sys2Proof/Machine/Step.lean ====
section
/-!
DEFINITION. The step of the machine: the host's next access, which is the core's step when it is a write to CMD
(00_scope.md R5, 20_memory.md R51, 47_commands.md R108).
-/

namespace Sys2Proof.Machine

/-- One step. -/
def step (s : State) : Host.Outcome State Fault Refusal := hostStep s

/-- `s` with the instruction whose bits are `w` (bits above `nbits` zero) as the word of the host's next access, a write
to CMD: what `step` performs next. The block fetches nothing (10_state.md R17), so this is how an instruction is given
to it (entry 11). -/
def State.withFetchWord (s : State) (nbits w : Nat) : State := s.withCommand (tableWord nbits w)

end Sys2Proof.Machine
end

