-- ==== Sys2Proof/Safety.lean ====
section
/-!
DEFINITION. What counts as a sound state and a sound result of the block, and the arithmetic of the stream format in the
spec's own terms (30_encoding.md R63 to R68), apart from the functions the machine runs. Claims are stated with these.
-/

namespace Sys2Proof

open Sys2Proof.Machine

/-! ### The stream format, in numbers -/

/-- The zigzag image of a residual, in integers (42_zigzag.md R78): 2r for r ≥ 0, -2r - 1 for r < 0. -/
def zigzag (r : Int) : Nat := if 0 ≤ r then (2 * r).toNat else (-2 * r - 1).toNat

/-- The residual of a zigzag value, in integers (42_zigzag.md R81): u / 2 for even u, -(u + 1) / 2 for odd u. -/
def unzigzag (u : Nat) : Int := if u % 2 = 0 then ((u / 2 : Nat) : Int) else -(((u + 1) / 2 : Nat) : Int)

/-- `k` is the group count k(u): the least k ≥ 1 with u < 2^(4k) (30_encoding.md R65). -/
def IsGroupCount (u k : Nat) : Prop := 1 ≤ k ∧ u < 2 ^ (4 * k) ∧ ∀ k', 1 ≤ k' → u < 2 ^ (4 * k') → k ≤ k'

/-- Group i of the codeword of `u` with `k` groups (R63, R65): DATA is u[4i+3 : 4i], CONT is 1 but in the last group. -/
def codewordGroup (u k i : Nat) : Nat := u / 2 ^ (4 * i) % 16 + if i + 1 < k then 16 else 0

/-- The groups stand at stream bits p .. p + 5k - 1 of a byte buffer: stream bit p + 5i + j is bit j of group i (R64). -/
def StreamHolds (byteAt : Nat → Byte) (p : Nat) (gs : List Group) : Prop :=
  ∀ i (h : i < gs.length), ∀ j < 5, streamBit byteAt (p + 5 * i + j) = (gs[i]'h).getLsbD j

/-- Every group has CONT = 1 (R63). -/
def AllContinue (gs : List Group) : Prop := ∀ g ∈ gs, g.getLsbD 4 = true

/-- The value the DATA fields of the groups stand for, the first group lowest (R65, 44_nibble_decoder.md R89). -/
def groupsValue : List Group → Nat
  | [] => 0
  | g :: gs => g.toNat % 16 + 16 * groupsValue gs

/-- A legal command word (30_encoding.md R58): w[31:8] = 0 and w[7:0] in 1 .. 5. -/
def LegalWord (w : Word) : Prop := w.toNat / 256 = 0 ∧ 1 ≤ w.toNat % 256 ∧ w.toNat % 256 ≤ 5

/-- The host's next access is a write of the word to CMD, and these are the accesses after it. -/
def NextIsCommand (s : State) (w : Word) (ops : List HostOp) : Prop := s.hostOps = .regWrite 0x00#8 w :: ops

/-- The host's next access is a write of one of the words to CMD. -/
def NextIsOneOf (s : State) (words : List Word) : Prop := ∃ w ∈ words, ∃ ops, NextIsCommand s w ops

/-! ### Reading IN -/

/-- The host has written since reset every byte of IN that holds one of the stream bits p .. p + n - 1 (20_memory.md R50). -/
def BitsWritten (s : State) (p n : Nat) : Prop := ∀ q, p ≤ q → q < p + n → q / 8 ∈ s.inWritten

/-- The host has written since reset every byte of IN below D_LIMIT, what keeps a session from `UnwrittenInRead`
(93_implementation_defined.md S3). -/
def InputLoaded (s : State) : Prop := ∀ j, 8 * j < s.dLimit.toNat → j ∈ s.inWritten

/-! ### Sound results -/

/-- A run has no error when ERR_LOG = 0 (70_reset_and_hazards.md R145). -/
def NoError (s : State) : Prop := s.errLog = 0#32

/-- The source's compress result: OUT[0 .. OUT_LEN-1] when E_STATE = CLOSED and E_ERR = 0 (47_commands.md R114). -/
def compressResult (s : State) : Option (List Byte) :=
  if s.eState = .closed ∧ s.eErr = .noError then some ((List.range s.outLen.toNat).map s.outByte) else none

/-- The samples read from RESULT are the source's decompress result when D_STATE = COMPLETE and D_ERR = 0 (R114). -/
def DecompressValid (s : State) : Prop := s.dState = .complete ∧ s.dErr = .noError

/-! ### The invariant of the block -/

/-- Bits `W_POS mod 8` and above of the partial byte are 0 (45_bit_writer.md R97, 10_state.md R38). -/
def PartialByteClean (s : State) : Prop :=
  ∀ q, s.wPos.toNat ≤ q → q < 8 * ceilDiv s.wPos.toNat 8 → streamBit s.outByte q = false

/-- The encoder session (10_state.md R22 to R26, R38). -/
structure EncInv (s : State) : Prop where
  /-- E_ERR is nonzero exactly when E_STATE = FAILED (R23). -/
  errIffFailed : s.eErr ≠ .noError ↔ s.eState = .failed
  /-- The encoder raises OutputOverflow and SequenceError only (R118; IntegerOverflow never in fact, R79). -/
  errKinds : s.eErr = .noError ∨ s.eErr = .outputOverflow ∨ s.eErr = .sequenceError
  /-- W_POS ≤ 8 × OUT_CAP (R25). -/
  cursorInOut : s.wPos.toNat ≤ 8 * s.capOut.toNat
  /-- W_POS is a whole number of groups (R25: each group written adds 5). -/
  wholeGroups : s.wPos.toNat % 5 = 0
  /-- R97. -/
  partialClean : PartialByteClean s
  /-- Before the first session nothing is written (R22, R24 to R26). -/
  idleZero : s.eState = .idle → s.ePrev = 0#32 ∧ s.wPos = 0#64 ∧ s.outLen = 0#32
  /-- During an open session OUT_LEN is 0 (R26). -/
  openLen : s.eState = .opened → s.outLen = 0#32
  /-- In a finished session OUT_LEN is ceil_div(W_POS, 8) (R26). -/
  closedLen : s.eState = .closed → s.outLen.toNat = ceilDiv s.wPos.toNat 8
  /-- OUT_LEN ≤ OUT_CAP (45_bit_writer.md R98). -/
  lenInOut : s.outLen.toNat ≤ s.capOut.toNat

/-- The decoder session (10_state.md R27 to R33). -/
structure DecInv (s : State) : Prop where
  /-- D_ERR is nonzero exactly when D_STATE = FAILED (R28). -/
  errIffFailed : s.dErr ≠ .noError ↔ s.dState = .failed
  /-- The decoder raises no OutputOverflow and no IllegalCommand (R118). -/
  errKinds : s.dErr ≠ .outputOverflow ∧ s.dErr ≠ .illegalCommand
  /-- R_POS ≤ D_LIMIT (R30). -/
  cursorInLimit : s.rPos.toNat ≤ s.dLimit.toNat
  /-- D_LIMIT is a number of whole bytes within IN (R31, 46_bit_reader.md R101). -/
  limitInIn : s.dLimit.toNat % 8 = 0 ∧ s.dLimit.toNat ≤ 8 * s.capIn.toNat
  /-- R_POS is a whole number of groups (R30). -/
  wholeGroups : s.rPos.toNat % 5 = 0
  /-- Each decoded sample used 1 to 9 groups (R30, 44_nibble_decoder.md R89). -/
  bitsSpent : 5 * s.dDone.toNat ≤ s.rPos.toNat ∧ s.rPos.toNat ≤ 45 * s.dDone.toNat
  /-- Before the first session every decoder register is 0 (R27 to R33). -/
  idleZero : s.dState = .idle →
    s.dPrev = 0#32 ∧ s.rPos = 0#64 ∧ s.dLimit = 0#64 ∧ s.dN = 0#32 ∧ s.dDone = 0#32
  /-- In an active session D_DONE < D_N (R27, R33). -/
  activeCount : s.dState = .active → (s.dDone.toNat : Int) < s.dN.toInt
  /-- In a complete session D_DONE = D_N (R27, R33). -/
  completeCount : s.dState = .complete → (s.dDone.toNat : Int) = s.dN.toInt

/-- The error fields (10_state.md R36, R37). -/
structure ErrInv (s : State) : Prop where
  /-- CMD_ERR is 0 or 7 (R36). -/
  cmdKinds : s.cmdErr = .noError ∨ s.cmdErr = .illegalCommand
  /-- ERR_LOG bits 0 and 31:8 read 0 (R37). -/
  logMask : s.errLog &&& 0xFFFFFF01#32 = 0#32
  /-- A code held in E_ERR, D_ERR or CMD_ERR has its bit in ERR_LOG (R37). -/
  logged : ∀ c, c ≠ .noError → c = s.eErr ∨ c = s.dErr ∨ c = s.cmdErr → s.errLog.getLsbD c.code.toNat = true

/-- The two memories (20_memory.md R40 to R42) and the record of the bytes written since reset (R50). -/
structure MemInv (s : State) : Prop where
  /-- 1 ≤ IN_CAP and 1 ≤ OUT_CAP (00_scope.md R9). -/
  caps : s.capIn ≠ 0#32 ∧ s.capOut ≠ 0#32
  /-- Both memories are in canonical form. -/
  canonical : s.inMem.wf ∧ s.outMem.wf
  /-- Every byte written lies within its buffer. -/
  inRange : (∀ c ∈ s.inMem, c.1 < s.capIn.toNat) ∧ (∀ c ∈ s.outMem, c.1 < s.capOut.toNat)
  /-- The record of written indices is strictly rising. -/
  recordRising : s.inWritten.Pairwise (· < ·)
  /-- An index recorded as written since reset holds a written byte. -/
  recordWritten : ∀ j ∈ s.inWritten, (s.inMem.read j).isSome = true

/-- The invariant every step keeps. -/
structure Inv (s : State) : Prop where
  enc : EncInv s
  dec : DecInv s
  err : ErrInv s
  mem : MemInv s

/-! ### What each session can see -/

/-- The state an encoder command may read or write (10_state.md R39), the shared CMD_ERR and ERR_LOG left out. -/
def encView (s : State) : EState × ErrCode × Word × DWord × Word × Memory × Word × Word :=
  (s.eState, s.eErr, s.ePrev, s.wPos, s.outLen, s.outMem, s.arg, s.capOut)

/-- The registers a decoder command may read or write (10_state.md R39), IN and the shared CMD_ERR and ERR_LOG left out. -/
def decRegs (s : State) : DState × ErrCode × Word × DWord × DWord × Word × Word × Word × Word × Word × Word :=
  (s.dState, s.dErr, s.dPrev, s.rPos, s.dLimit, s.dN, s.dDone, s.inLen, s.result, s.arg, s.capIn)

/-- The two states show the same IN below stream bit `n`: the same bytes, and the same ones written since reset. -/
def SameInBelow (n : Nat) (s s' : State) : Prop :=
  ∀ j, 8 * j < n → s.inByte j = s'.inByte j ∧ (j ∈ s.inWritten ↔ j ∈ s'.inWritten)

end Sys2Proof
end

