-- ==== Sys2Proof/Certificates/Slice0/Obligations.lean ====
section
/-!
DEFINITION. The statements about the block, each with the rule of the spec it formalises. Statements about a command hold
in every state, also in states no run reaches, unless a premise says otherwise.
-/

open Sys2Proof Sys2Proof.Machine

/-! ## Reset and the invariant -/

/-- R132: what reset leaves, for every IN_CAP and OUT_CAP. Nothing is written to IN or OUT, and no byte of IN counts as
written since reset (the model's form of "unspecified", entry 4). -/
def Obligations.ResetLeavesEveryRegisterAtItsValue : Prop :=
  ∀ inCap outCap : Word, ∀ s : State, s = State.resetWith inCap outCap →
    s.arg = 0#32 ∧ s.result = 0#32 ∧ s.eState = .idle ∧ s.eErr = .noError ∧ s.ePrev = 0#32 ∧ s.wPos = 0#64 ∧
    s.outLen = 0#32 ∧ s.dState = .idle ∧ s.dErr = .noError ∧ s.dPrev = 0#32 ∧ s.rPos = 0#64 ∧ s.dLimit = 0#64 ∧
    s.dN = 0#32 ∧ s.dDone = 0#32 ∧ s.inLen = 0#32 ∧ s.cmdErr = .noError ∧ s.errLog = 0#32 ∧
    s.readOffset 0x0C#8 = 0#32 ∧ s.readOffset 0x44#8 = inCap ∧ s.readOffset 0x48#8 = outCap ∧
    ∀ j, s.inMem.read j = none ∧ s.outMem.read j = none ∧ j ∉ s.inWritten

/-- R131: reset is one step; every register gets its value of R132, IN and OUT do not change, an open session is gone. No
byte of IN counts as written since reset afterwards (entry 5), and the host's record is not the block's (entries 2, 3). -/
def Obligations.ResetStepKeepsBuffers : Prop :=
  ∀ (s : State) (ops : List HostOp), s.hostOps = .reset :: ops →
    step s = .next { State.resetWith s.capIn s.capOut with
      inMem := s.inMem, outMem := s.outMem, hostOps := ops, hostSeen := s.hostSeen }

/-- The invariant of Safety.lean holds after reset, for every capacity R9 admits. -/
def Obligations.InvariantHoldsAtReset : Prop :=
  ∀ inCap outCap : Word, inCap ≠ 0#32 → outCap ≠ 0#32 → Inv (State.resetWith inCap outCap)

/-- HEADLINE. Every step keeps the invariant: the session and error fields agree (R23, R28), the cursors stay within their
buffers and on whole groups (R25, R30), the partial byte is clean (R97), OUT_LEN and D_DONE say what R26 and R33 say,
ERR_LOG remembers every code held (R37), and both memories keep their form and stay within their capacities (R40). -/
def Obligations.StepKeepsInvariant : Prop :=
  ∀ s t : State, Inv s → step s = .next t → Inv t

/-! ## Command words -/

/-- R56 to R58 for every command and every word: decoding gives a command exactly on its word; from its byte lanes (R44)
the command is read whatever bytes follow; and the opcode-table reading agrees. -/
def Obligations.DecodeInvertsEncode : Prop :=
  (∀ i : Instr, i.wellFormed = true → decode (encode i) = .ok i) ∧
  (∀ (w : Word) (i : Instr), decode w = .ok i → w = encode i) ∧
  (∀ (i : Instr) (rest : List Byte), decodeBytes (wordLanes (encode i) ++ rest) = .ok (i, rest)) ∧
  (∀ (w : Word) (i : Instr), decodeTableWord 32 w.toNat = some i ↔ w = encode i)

/-- R58 and R60: the words 1 .. 5 decode, and a word decodes only if it is one of them. -/
def Obligations.DecodeAcceptsExactlyLegalWords : Prop :=
  ∀ w : Word, (∃ i, decode w = .ok i) ↔ LegalWord w

/-- The five command words and some illegal ones, written out from R57 and R60 (95_test_vectors.md section 2.7). -/
def Obligations.ListedWordsDecodeAsTheTableSays : Prop :=
  decode 0x00000001#32 = .ok .encInit ∧ decode 0x00000002#32 = .ok .encSample ∧
  decode 0x00000003#32 = .ok .encFinish ∧ decode 0x00000004#32 = .ok .decInit ∧
  decode 0x00000005#32 = .ok .decSample ∧ decode 0x00000000#32 = .error .unknownOpcode ∧
  decode 0x00000006#32 = .error .unknownOpcode ∧ decode 0x000000FF#32 = .error .unknownOpcode ∧
  decode 0x00000101#32 = .error .reservedBits ∧ decode 0x80000002#32 = .error .reservedBits

/-- R108: a step whose next host access writes a legal word to CMD runs exactly its command, on the state without that
access; and `withFetchWord` sets this up. -/
def Obligations.StepRunsTheDecodedCommand : Prop :=
  (∀ (s : State) (w : Word) (ops : List HostOp) (i : Instr), NextIsCommand s w ops → decode w = .ok i →
    step s = exec i { s with hostOps := ops }) ∧
  (∀ (s : State) (w : Word) (i : Instr), decode w = .ok i → step (s.withFetchWord 32 w.toNat) = exec i s)

/-- R120 with R58 and R60: an illegal word written to CMD sets CMD_ERR to 7 and ERR_LOG bit 7, and changes nothing else of
the block. -/
def Obligations.IllegalWordRecordsAndChangesNothingElse : Prop :=
  ∀ (s : State) (w : Word) (ops : List HostOp), NextIsCommand s w ops → ¬LegalWord w →
    step s = .next { s with hostOps := ops, cmdErr := .illegalCommand, errLog := s.errLog ||| 0x80#32 }

/-- R36: CMD_ERR is a 3-bit field of STATUS with reset value 0; every write to CMD sets it, to 7 for an illegal word and to
0 for a legal one, also when the command then raises a session error. -/
def Obligations.CommandWriteSetsCmdErr : Prop :=
  (∀ s : State, s.status.extractLsb' 12 3 = s.cmdErr.code) ∧
  ErrCode.noError.code = 0#3 ∧ ErrCode.illegalCommand.code = 7#3 ∧
  (∀ inCap outCap : Word, (State.resetWith inCap outCap).cmdErr = .noError) ∧
  ∀ (s t : State) (w : Word) (ops : List HostOp), NextIsCommand s w ops → step s = .next t →
    (LegalWord w → t.cmdErr = .noError) ∧ (¬LegalWord w → t.cmdErr = .illegalCommand)

/-- R119: recording a session error makes the session FAILED with the code and sets the code's ERR_LOG bit; nothing else
changes. -/
def Obligations.RaiseRecordsErrorAndNothingElse : Prop :=
  ∀ (s : State) (c : ErrCode),
    s.raise .enc c = { s with eState := .failed, eErr := c, errLog := s.errLog ||| (1#32 <<< c.code.toNat) } ∧
    s.raise .dec c = { s with dState := .failed, dErr := c, errLog := s.errLog ||| (1#32 <<< c.code.toNat) }

/-! ## Encoder commands -/

/-- R109: ENC_INIT, word 1, in every state, the whole next state; OUT, ERR_LOG and decoder state stay. ENC_FINISH at once
then gives the empty stream. -/
def Obligations.EncInitOpensAnEmptySession : Prop :=
  decode 0x00000001#32 = .ok .encInit ∧ ∀ s : State, ∃ t,
    exec .encInit s = .next t ∧
    t = { s with cmdErr := .noError, eState := .opened, eErr := .noError, ePrev := 0#32, wPos := 0#64, outLen := 0#32 } ∧
    exec .encFinish t = .next { t with eState := .closed }

/-- R110 on its normal path, in the numbers of R65, R73 and R78: in an open session with room, ENC_SAMPLE completes; W_POS
advances by 5 k(u), the k groups of u stand at the old W_POS, the bits below and the bytes outside are as before, E_PREV is
the sample, and no other field changes but CMD_ERR. -/
def Obligations.EncSampleWritesTheCodeword : Prop :=
  ∀ (s : State) (u k : Nat), s.eState = .opened → u = zigzag (s.arg.toInt - s.ePrev.toInt) → IsGroupCount u k →
    ceilDiv (s.wPos.toNat + 5 * k) 8 ≤ s.capOut.toNat →
    ∃ out : Memory,
      exec .encSample s = .next { s with
        cmdErr := .noError, wPos := BitVec.ofNat 64 (s.wPos.toNat + 5 * k), ePrev := s.arg, outMem := out } ∧
      s.wPos.toNat + 5 * k < 2 ^ 64 ∧
      (∀ i < k, ∀ j < 5,
        streamBit (outByteOf out) (s.wPos.toNat + 5 * i + j) = (codewordGroup u k i).testBit j) ∧
      (∀ q < s.wPos.toNat, streamBit (outByteOf out) q = streamBit s.outByte q) ∧
      (∀ j, j < s.wPos.toNat / 8 ∨ (s.wPos.toNat + 5 * k - 1) / 8 < j → out.read j = s.outMem.read j)

/-- R96 in ENC_SAMPLE: where the codeword does not fit, OutputOverflow is recorded, and OUT, W_POS and E_PREV stay. -/
def Obligations.EncSampleWithoutRoomRaisesOutputOverflow : Prop :=
  ∀ (s : State) (k : Nat), s.eState = .opened → IsGroupCount (zigzag (s.arg.toInt - s.ePrev.toInt)) k →
    s.capOut.toNat < ceilDiv (s.wPos.toNat + 5 * k) 8 →
    exec .encSample s = .next { s with
      cmdErr := .noError, eState := .failed, eErr := .outputOverflow, errLog := s.errLog ||| 0x10#32 }

/-- R110 and R115: ENC_SAMPLE in IDLE or CLOSED records SequenceError and does nothing else. -/
def Obligations.EncSampleOutOfSequenceRaises : Prop :=
  ∀ s : State, s.eState = .idle ∨ s.eState = .closed →
    exec .encSample s = .next { s with
      cmdErr := .noError, eState := .failed, eErr := .sequenceError, errLog := s.errLog ||| 0x20#32 }

/-- R111: ENC_FINISH, word 3. In an open session it sets OUT_LEN to ceil_div(W_POS, 8) and closes the session, and no OUT
byte is written; in IDLE or CLOSED it records SequenceError; in FAILED it has no effect but the CMD_ERR of R36. An
ENC_SAMPLE after it is an error. -/
def Obligations.EncFinishClosesWithLength : Prop :=
  decode 0x00000003#32 = .ok .encFinish ∧ ∀ s : State,
    (s.eState = .opened → exec .encFinish s = .next { s with
      cmdErr := .noError, outLen := BitVec.ofNat 32 (ceilDiv s.wPos.toNat 8), eState := .closed }) ∧
    (s.eState = .idle ∨ s.eState = .closed → exec .encFinish s = .next { s with
      cmdErr := .noError, eState := .failed, eErr := .sequenceError, errLog := s.errLog ||| 0x20#32 }) ∧
    (s.eState = .failed → exec .encFinish s = .next { s with cmdErr := .noError }) ∧
    (∀ t, s.eState = .opened → exec .encFinish s = .next t → exec .encSample t = .next { t with
      cmdErr := .noError, eState := .failed, eErr := .sequenceError, errLog := t.errLog ||| 0x20#32 })

/-- R98 and R68: after ENC_FINISH in a sound state, the stream is OUT[0 .. OUT_LEN-1] with OUT_LEN = ceil_div(W_POS, 8), and
its bits from W_POS on are 0. -/
def Obligations.FinishedStreamIsZeroPadded : Prop :=
  ∀ s t : State, Inv s → s.eState = .opened → exec .encFinish s = .next t →
    t.outLen.toNat = ceilDiv s.wPos.toNat 8 ∧ compressResult t = some ((List.range t.outLen.toNat).map t.outByte) ∧
    ∀ q, s.wPos.toNat ≤ q → q < 8 * t.outLen.toNat → streamBit t.outByte q = false

/-- R121: in a FAILED session ENC_SAMPLE, ENC_FINISH and DEC_SAMPLE do nothing but clear CMD_ERR, and only that session's
INIT command clears its error. -/
def Obligations.FailedSessionKeepsItsFirstError : Prop :=
  (∀ s : State, s.eState = .failed →
    exec .encSample s = .next { s with cmdErr := .noError } ∧ exec .encFinish s = .next { s with cmdErr := .noError }) ∧
  (∀ s : State, s.dState = .failed → exec .decSample s = .next { s with cmdErr := .noError }) ∧
  (∀ (s t : State) (i : Instr), exec i s = .next t → s.eState = .failed → i ≠ .encInit →
    t.eState = .failed ∧ t.eErr = s.eErr) ∧
  (∀ (s t : State) (i : Instr), exec i s = .next t → s.dState = .failed → i ≠ .decInit →
    t.dState = .failed ∧ t.dErr = s.dErr)

/-- R115 (encoder table): every encoder command answers a next state in every state, and leaves the E_STATE the table
gives. -/
def Obligations.EncoderStateMachine : Prop :=
  ∀ s : State,
    (∃ t, exec .encInit s = .next t ∧ t.eState = .opened) ∧
    (∃ t, exec .encSample s = .next t ∧
      (s.eState = .idle ∨ s.eState = .closed → t.eState = .failed ∧ t.eErr = .sequenceError) ∧
      (s.eState = .opened → t.eState = .opened ∨ t.eState = .failed ∧ t.eErr = .outputOverflow) ∧
      (s.eState = .failed → t.eState = .failed)) ∧
    (∃ t, exec .encFinish s = .next t ∧
      (s.eState = .idle ∨ s.eState = .closed → t.eState = .failed ∧ t.eErr = .sequenceError) ∧
      (s.eState = .opened → t.eState = .closed) ∧
      (s.eState = .failed → t.eState = .failed))

/-- R39, the frame of the encoder commands: ARG, RESULT, every decoder register, IN, the capacities and the host's record
stay; ENC_INIT and ENC_FINISH leave OUT, ENC_FINISH leaves E_PREV and W_POS, ENC_SAMPLE leaves OUT_LEN; ERR_LOG loses no
bit. (EncSampleTouchesOnlyItsBytes says which bytes of OUT stay.) -/
def Obligations.EncoderCommandsFrame : Prop :=
  ∀ (s t : State) (i : Instr), i = .encInit ∨ i = .encSample ∨ i = .encFinish → exec i s = .next t →
    t = { s with
      cmdErr := .noError, eState := t.eState, eErr := t.eErr, ePrev := t.ePrev, wPos := t.wPos, outLen := t.outLen,
      outMem := t.outMem, errLog := t.errLog } ∧
    (i ≠ .encSample → t.outMem = s.outMem) ∧ (i = .encFinish → t.ePrev = s.ePrev ∧ t.wPos = s.wPos) ∧
    (i = .encSample → t.outLen = s.outLen) ∧ t.errLog &&& s.errLog = s.errLog

/-- R42 and R139: in every state ENC_SAMPLE leaves the bytes below W_POS div 8 and the bytes at or beyond
ceil_div(W_POS, 8) of the state it leaves as they were. -/
def Obligations.EncSampleTouchesOnlyItsBytes : Prop :=
  ∀ s t : State, exec .encSample s = .next t →
    ∀ j, j < s.wPos.toNat / 8 ∨ ceilDiv t.wPos.toNat 8 ≤ j → t.outMem.read j = s.outMem.read j

/-- R69 and R86: a sample that is encoded costs 1 to 9 groups of 5 bits, and at most 8 when it is coded against 0. -/
def Obligations.EncodedSampleCostsOneToNineGroups : Prop :=
  ∀ s t : State, s.eState = .opened → exec .encSample s = .next t → t.eState = .opened →
    ∃ k, 1 ≤ k ∧ k ≤ 9 ∧ t.wPos.toNat = s.wPos.toNat + 5 * k ∧ (s.ePrev = 0#32 → k ≤ 8)

/-- R79 and R122: ENC_SAMPLE never records IntegerOverflow: it holds that code afterwards only if it did before. -/
def Obligations.EncSampleNeverOverflowsTheRange : Prop :=
  ∀ s t : State, exec .encSample s = .next t → t.eErr = .integerOverflow → s.eErr = .integerOverflow

/-- R39 as non-interference: what an encoder command does to the encoder session depends on nothing but that session, ARG
and OUT_CAP. -/
def Obligations.EncoderDependsOnlyOnItsSession : Prop :=
  ∀ (s s' : State) (i : Instr), i = .encInit ∨ i = .encSample ∨ i = .encFinish → encView s = encView s' →
    ∃ t t', exec i s = .next t ∧ exec i s' = .next t' ∧ encView t = encView t'

/-! ## Units -/

/-- R73 and R74: the residual is the exact difference, within 33 bits, and within 32 bits against 0. -/
def Obligations.ResidualIsTheExactDifference : Prop :=
  ∀ x p : Word,
    (predResidual x p).toInt = x.toInt - p.toInt ∧
    -(2 ^ 32 - 1) ≤ (predResidual x p).toInt ∧ (predResidual x p).toInt ≤ 2 ^ 32 - 1 ∧
    (p = 0#32 → -2 ^ 31 ≤ (predResidual x p).toInt ∧ (predResidual x p).toInt ≤ 2 ^ 31 - 1)

/-- R75 and R76: reconstruction gives the exact sum when it is a 32-bit value and IntegerOverflow otherwise, and undoes the
residual. -/
def Obligations.ReconstructInvertsResidual : Prop :=
  (∀ (p : Word) (r : DWord), -2 ^ 31 ≤ p.toInt + r.toInt → p.toInt + r.toInt ≤ 2 ^ 31 - 1 →
    ∃ x : Word, predReconstruct p r = .ok x ∧ x.toInt = p.toInt + r.toInt) ∧
  (∀ (p : Word) (r : DWord), p.toInt + r.toInt < -2 ^ 31 ∨ 2 ^ 31 - 1 < p.toInt + r.toInt →
    predReconstruct p r = .raised .integerOverflow) ∧
  (∀ x p : Word, predReconstruct p (predResidual x p) = .ok x)

/-- R78, on every 64-bit residual: the bit formula is 2r for r ≥ 0 and -2r - 1 for r < 0. -/
def Obligations.ZigzagIsTheIntegerFormula : Prop :=
  ∀ r : DWord, (zzToUnsigned r).toNat = zigzag r.toInt

/-- R81: the bit formula is u / 2 for even u and -(u + 1) / 2 for odd u. -/
def Obligations.UnzigzagIsTheIntegerFormula : Prop :=
  ∀ u : DWord, (zzToSigned u).toInt = unzigzag u.toNat

/-- R82: the mapping is a bijection on 64-bit values, even exactly for non-negative residuals, and orders by magnitude. -/
def Obligations.ZigzagIsABijectionByMagnitude : Prop :=
  (∀ r : DWord, zzToSigned (zzToUnsigned r) = r) ∧ (∀ u : DWord, zzToUnsigned (zzToSigned u) = u) ∧
  (∀ r : DWord, (zzToUnsigned r).toNat % 2 = 0 ↔ 0 ≤ r.toInt) ∧
  (∀ r r' : DWord, r.toInt.natAbs < r'.toInt.natAbs → (zzToUnsigned r).toNat < (zzToUnsigned r').toNat)

/-- R79 and R80: every zigzag value of a residual of two samples is at most 2^33 - 2, at most 2^32 - 1 against 0, and passes
the range check; the check raises exactly at 2^34 and above. -/
def Obligations.EncoderZigzagPassesTheRangeCheck : Prop :=
  (∀ x p : Word, (zzToUnsigned (predResidual x p)).toNat ≤ 2 ^ 33 - 2 ∧
    zzRangeCheck (zzToUnsigned (predResidual x p)) = .ok () ∧
    (p = 0#32 → (zzToUnsigned (predResidual x p)).toNat ≤ 2 ^ 32 - 1)) ∧
  (∀ u : DWord, zzRangeCheck u = .raised .integerOverflow ↔ 2 ^ 34 ≤ u.toNat)

/-- R65 and R84: the group list of a value has k(u) groups, and group i is u[4i+3 : 4i] with CONT 1 but in the last. -/
def Obligations.GroupsAreTheCodewordOfTheValue : Prop :=
  ∀ (u : DWord) (k : Nat), IsGroupCount u.toNat k →
    (ngeGroups u).length = k ∧
    ∀ i (h : i < (ngeGroups u).length), ((ngeGroups u)[i]'h).toNat = codewordGroup u.toNat k i

/-- R84 and R87: at most 9 groups below 2^36, CONT = 0 in exactly the last, whose DATA is nonzero unless it is the only
one. -/
def Obligations.CodewordIsCanonicalAndSelfTerminating : Prop :=
  ∀ u : DWord, (ngeGroups u ≠ []) ∧ (u.toNat < 2 ^ 36 → (ngeGroups u).length ≤ 9) ∧
    (∀ i (h : i < (ngeGroups u).length),
      (((ngeGroups u)[i]'h).getLsbD 4 = false ↔ i + 1 = (ngeGroups u).length)) ∧
    (∀ h : 1 < (ngeGroups u).length, ((ngeGroups u)[(ngeGroups u).length - 1]'(by omega)).toNat % 16 ≠ 0)

/-- R90: the codeword of a value below 2^36 that stands in IN at R_POS, within D_LIMIT, decodes to that value, having read
exactly its bits, whatever follows it. -/
def Obligations.DecoderReadsBackTheCodeword : Prop :=
  ∀ (s : State) (u : DWord), u.toNat < 2 ^ 36 → StreamHolds s.inByte s.rPos.toNat (ngeGroups u) →
    s.rPos.toNat + 5 * (ngeGroups u).length ≤ s.dLimit.toNat →
    BitsWritten s s.rPos.toNat (5 * (ngeGroups u).length) →
    ngdDecode s = .ok (u, s.rPos.toNat + 5 * (ngeGroups u).length)

/-- R67: a codeword padded with groups of DATA = 0, up to 9 groups, decodes to the value of its other groups. -/
def Obligations.NonCanonicalCodewordDecodes : Prop :=
  ∀ (s : State) (gs : List Group) (m : Nat), AllContinue gs → gs.length + m + 1 ≤ 9 →
    StreamHolds s.inByte s.rPos.toNat (gs ++ List.replicate m 0x10#5 ++ [0x00#5]) →
    s.rPos.toNat + 5 * (gs.length + m + 1) ≤ s.dLimit.toNat →
    BitsWritten s s.rPos.toNat (5 * (gs.length + m + 1)) →
    ∃ u : DWord, ngdDecode s = .ok (u, s.rPos.toNat + 5 * (gs.length + m + 1)) ∧ u.toNat = groupsValue gs

/-! ## Decoder commands -/

/-- R112: DEC_INIT, word 4, in every state, by its count and IN_LEN; the "init" writes commit also when it raises. With
IN_LEN = 0 and a positive count the first DEC_SAMPLE raises InsufficientData. -/
def Obligations.DecInitStartsOrRejectsASession : Prop :=
  decode 0x00000004#32 = .ok .decInit ∧ ∀ s i : State,
    i = { s with cmdErr := .noError, dN := s.arg, dErr := .noError, dPrev := 0#32, dDone := 0#32, rPos := 0#64,
                 dLimit := 0#64 } →
    (s.arg.toInt < 0 → exec .decInit s = .next { i with
      dState := .failed, dErr := .invalidSampleCount, errLog := s.errLog ||| 0x02#32 }) ∧
    (s.arg.toInt = 0 → exec .decInit s = .next { i with dState := .complete }) ∧
    (0 < s.arg.toInt → s.capIn.toNat < s.inLen.toNat → exec .decInit s = .next { i with
      dState := .failed, dErr := .invalidLength, errLog := s.errLog ||| 0x40#32 }) ∧
    (0 < s.arg.toInt → s.inLen.toNat ≤ s.capIn.toNat → exec .decInit s = .next { i with
      dState := .active, dLimit := BitVec.ofNat 64 (8 * s.inLen.toNat) }) ∧
    (∀ t, 0 < s.arg.toInt → s.inLen = 0#32 → exec .decInit s = .next t → exec .decSample t = .next { t with
      cmdErr := .noError, dState := .failed, dErr := .insufficientData, errLog := t.errLog ||| 0x04#32 })

/-- R113 on its normal path, in the numbers of R65, R75 and R81: a codeword of 1 to 9 groups at R_POS, within D_LIMIT and
written, whose value is below 2^34 and whose sample is a 32-bit value, is decoded; the whole next state. -/
def Obligations.DecSampleDecodesTheCodeword : Prop :=
  ∀ (s : State) (gs : List Group) (g : Group) (x : Int), s.dState = .active → AllContinue gs → g.getLsbD 4 = false →
    gs.length ≤ 8 → StreamHolds s.inByte s.rPos.toNat (gs ++ [g]) →
    s.rPos.toNat + 5 * (gs.length + 1) ≤ s.dLimit.toNat → BitsWritten s s.rPos.toNat (5 * (gs.length + 1)) →
    groupsValue (gs ++ [g]) < 2 ^ 34 → x = s.dPrev.toInt + unzigzag (groupsValue (gs ++ [g])) →
    -2 ^ 31 ≤ x → x ≤ 2 ^ 31 - 1 →
    exec .decSample s = .next { s with
      cmdErr := .noError
      rPos := BitVec.ofNat 64 (s.rPos.toNat + 5 * (gs.length + 1))
      dPrev := BitVec.ofInt 32 x
      result := BitVec.ofInt 32 x
      dDone := s.dDone + 1#32
      dState := if ((s.dDone + 1#32).toNat : Int) = s.dN.toInt then .complete else .active }

/-- R89, R103, R113: where after some continuing groups the next group does not fit before D_LIMIT, InsufficientData is
recorded and nothing else changes but CMD_ERR. -/
def Obligations.DecSampleShortInputRaisesInsufficientData : Prop :=
  ∀ (s : State) (gs : List Group), s.dState = .active → AllContinue gs → gs.length ≤ 8 →
    StreamHolds s.inByte s.rPos.toNat gs → (gs = [] ∨ s.rPos.toNat + 5 * gs.length ≤ s.dLimit.toNat) →
    BitsWritten s s.rPos.toNat (5 * gs.length) → s.dLimit.toNat < s.rPos.toNat + 5 * (gs.length + 1) →
    exec .decSample s = .next { s with
      cmdErr := .noError, dState := .failed, dErr := .insufficientData, errLog := s.errLog ||| 0x04#32 }

/-- R89 and R113: nine continuing groups record IntegerOverflow; no tenth group is looked at, so it need not fit. -/
def Obligations.DecSampleOfNineContinuingGroupsOverflows : Prop :=
  ∀ (s : State) (gs : List Group), s.dState = .active → AllContinue gs → gs.length = 9 →
    StreamHolds s.inByte s.rPos.toNat gs → s.rPos.toNat + 45 ≤ s.dLimit.toNat → BitsWritten s s.rPos.toNat 45 →
    exec .decSample s = .next { s with
      cmdErr := .noError, dState := .failed, dErr := .integerOverflow, errLog := s.errLog ||| 0x08#32 }

/-- R75, R80 and R113: a codeword whose value is 2^34 or more, or whose sample is no 32-bit value, records IntegerOverflow
and nothing else changes but CMD_ERR. -/
def Obligations.DecSampleOutOfRangeOverflows : Prop :=
  ∀ (s : State) (gs : List Group) (g : Group), s.dState = .active → AllContinue gs → g.getLsbD 4 = false →
    gs.length ≤ 8 → StreamHolds s.inByte s.rPos.toNat (gs ++ [g]) →
    s.rPos.toNat + 5 * (gs.length + 1) ≤ s.dLimit.toNat → BitsWritten s s.rPos.toNat (5 * (gs.length + 1)) →
    (2 ^ 34 ≤ groupsValue (gs ++ [g]) ∨
      s.dPrev.toInt + unzigzag (groupsValue (gs ++ [g])) < -2 ^ 31 ∨
      2 ^ 31 - 1 < s.dPrev.toInt + unzigzag (groupsValue (gs ++ [g]))) →
    exec .decSample s = .next { s with
      cmdErr := .noError, dState := .failed, dErr := .integerOverflow, errLog := s.errLog ||| 0x08#32 }

/-- R113 and R115: DEC_SAMPLE in IDLE or COMPLETE records SequenceError, reads no bit and changes nothing else. -/
def Obligations.DecSampleOutOfSequenceRaises : Prop :=
  ∀ s : State, s.dState = .idle ∨ s.dState = .complete →
    exec .decSample s = .next { s with
      cmdErr := .noError, dState := .failed, dErr := .sequenceError, errLog := s.errLog ||| 0x20#32 }

/-- R50: where after some continuing groups the next group fits but one of its bytes has not been written since reset,
DEC_SAMPLE ends in the model fault UnwrittenInRead, at the first such byte. -/
def Obligations.DecSampleOnUnwrittenByteFaults : Prop :=
  ∀ (s : State) (gs : List Group) (p : Nat), s.dState = .active → AllContinue gs → gs.length ≤ 8 →
    StreamHolds s.inByte s.rPos.toNat gs → BitsWritten s s.rPos.toNat (5 * gs.length) →
    p = s.rPos.toNat + 5 * gs.length → p + 5 ≤ s.dLimit.toNat →
    (p / 8 ∉ s.inWritten → exec .decSample s = .fault (.unwrittenInRead (p / 8))) ∧
    (p / 8 ∈ s.inWritten → (p + 4) / 8 ∉ s.inWritten →
      exec .decSample s = .fault (.unwrittenInRead ((p + 4) / 8)))

/-- R50 with 93 S3: when the host has written every byte of IN below D_LIMIT, DEC_SAMPLE answers a next state. -/
def Obligations.DecSampleOnLoadedInputNeverFaults : Prop :=
  ∀ s : State, InputLoaded s → ∃ t, exec .decSample s = .next t

/-- R39, the frame of the decoder commands: ARG, IN_LEN, every encoder register, IN, OUT, the capacities and the host's
record stay; DEC_INIT leaves RESULT; DEC_SAMPLE leaves D_N and D_LIMIT; ERR_LOG loses no bit. -/
def Obligations.DecoderCommandsFrame : Prop :=
  ∀ (s t : State) (i : Instr), i = .decInit ∨ i = .decSample → exec i s = .next t →
    t = { s with
      cmdErr := .noError, dState := t.dState, dErr := t.dErr, dPrev := t.dPrev, rPos := t.rPos, dLimit := t.dLimit,
      dN := t.dN, dDone := t.dDone, result := t.result, errLog := t.errLog } ∧
    (i = .decInit → t.result = s.result) ∧ (i = .decSample → t.dN = s.dN ∧ t.dLimit = s.dLimit) ∧
    t.errLog &&& s.errLog = s.errLog

/-- R39 and R41 as non-interference: what a decoder command does to the decoder session depends on nothing but that session
and IN below D_LIMIT; no bit at or beyond D_LIMIT is read. -/
def Obligations.DecoderDependsOnlyOnItsSessionAndInput : Prop :=
  ∀ (s s' : State) (i : Instr), i = .decInit ∨ i = .decSample → decRegs s = decRegs s' →
    SameInBelow s.dLimit.toNat s s' →
    (∀ t, exec i s = .next t → ∃ t', exec i s' = .next t' ∧ decRegs t = decRegs t') ∧
    (∀ f, exec i s = .fault f → exec i s' = .fault f)

/-- R107: five written zero bits within D_LIMIT decode as residual 0 and repeat the previous sample, padding or not. -/
def Obligations.ZeroGroupRepeatsThePreviousSample : Prop :=
  ∀ s : State, s.dState = .active → s.rPos.toNat + 5 ≤ s.dLimit.toNat → BitsWritten s s.rPos.toNat 5 →
    (∀ j < 5, streamBit s.inByte (s.rPos.toNat + j) = false) →
    exec .decSample s = .next { s with
      cmdErr := .noError
      rPos := BitVec.ofNat 64 (s.rPos.toNat + 5)
      result := s.dPrev
      dDone := s.dDone + 1#32
      dState := if ((s.dDone + 1#32).toNat : Int) = s.dN.toInt then .complete else .active }

/-- R76, R82 and R90 together, one sample of the round trip: a decoder whose context and cursor agree with the encoder's
before ENC_SAMPLE, and whose IN holds the bits ENC_SAMPLE wrote to OUT, decodes the encoder's sample and agrees with the
encoder after it. -/
def Obligations.OneSampleRoundTrips : Prop :=
  ∀ s t d : State, s.eState = .opened → exec .encSample s = .next t → t.eState = .opened →
    d.dState = .active → d.dPrev = s.ePrev → d.rPos = s.wPos → t.wPos.toNat ≤ d.dLimit.toNat →
    BitsWritten d s.wPos.toNat (t.wPos.toNat - s.wPos.toNat) →
    (∀ q, s.wPos.toNat ≤ q → q < t.wPos.toNat → streamBit d.inByte q = streamBit t.outByte q) →
    ∃ d', exec .decSample d = .next d' ∧ d'.result = s.arg ∧ d'.dPrev = t.ePrev ∧ d'.rPos = t.wPos ∧
      d'.dErr = d.dErr ∧ d'.errLog = d.errLog

/-! ## The host's accesses -/

/-- R35 with R22, R27 and R118: the fields of STATUS, its reserved bits, the codes they hold, and that a write to it is
ignored. -/
def Obligations.StatusHoldsItsFields : Prop :=
  (∀ s : State, s.readOffset 0x0C#8 = s.status ∧ (∀ v, s.writeOffset 0x0C#8 v = s) ∧
    s.status.extractLsb' 0 2 = s.eState.code ∧ s.status.extractLsb' 2 2 = s.dState.code ∧
    s.status.extractLsb' 4 3 = s.eErr.code ∧ s.status.extractLsb' 7 1 = 0#1 ∧
    s.status.extractLsb' 8 3 = s.dErr.code ∧ s.status.extractLsb' 11 1 = 0#1 ∧
    s.status.extractLsb' 12 3 = s.cmdErr.code ∧ s.status.extractLsb' 15 17 = 0#17) ∧
  ([EState.idle, .opened, .closed, .failed].map EState.code = [0#2, 1#2, 2#2, 3#2]) ∧
  ([DState.idle, .active, .complete, .failed].map DState.code = [0#2, 1#2, 2#2, 3#2]) ∧
  ([ErrCode.noError, .invalidSampleCount, .insufficientData, .integerOverflow, .outputOverflow, .sequenceError,
    .invalidLength, .illegalCommand].map ErrCode.code = [0#3, 1#3, 2#3, 3#3, 4#3, 5#3, 6#3, 7#3]) ∧
  (∀ inCap outCap : Word, (State.resetWith inCap outCap).status = 0#32)

/-- R18: what each offset of the register window reads, the halves of the 64-bit registers and the reserved offsets among
them. -/
def Obligations.RegisterWindowReads : Prop :=
  ∀ s : State,
    s.readOffset 0x00#8 = 0#32 ∧ s.readOffset 0x04#8 = s.arg ∧ s.readOffset 0x08#8 = s.result ∧
    s.readOffset 0x10#8 = s.errLog ∧ s.readOffset 0x14#8 = s.inLen ∧ s.readOffset 0x18#8 = s.outLen ∧
    s.readOffset 0x1C#8 = s.dN ∧ s.readOffset 0x20#8 = s.dDone ∧ s.readOffset 0x24#8 = s.ePrev ∧
    s.readOffset 0x28#8 = s.dPrev ∧
    (s.readOffset 0x2C#8).toNat = s.wPos.toNat % 2 ^ 32 ∧ (s.readOffset 0x30#8).toNat = s.wPos.toNat / 2 ^ 32 ∧
    (s.readOffset 0x34#8).toNat = s.rPos.toNat % 2 ^ 32 ∧ (s.readOffset 0x38#8).toNat = s.rPos.toNat / 2 ^ 32 ∧
    (s.readOffset 0x3C#8).toNat = s.dLimit.toNat % 2 ^ 32 ∧ (s.readOffset 0x40#8).toNat = s.dLimit.toNat / 2 ^ 32 ∧
    s.readOffset 0x44#8 = s.capIn ∧ s.readOffset 0x48#8 = s.capOut ∧
    ∀ off : BitVec 8, 0x4C ≤ off.toNat → s.readOffset off = 0#32

/-- R18 and R46: an aligned register read of the host records the value of its offset (entry 3) and changes nothing of the
block. -/
def Obligations.RegisterReadHasNoSideEffect : Prop :=
  ∀ (s : State) (off : BitVec 8) (ops : List HostOp), s.hostOps = .regRead off :: ops → off.toNat % 4 = 0 →
    step s = .next { s with hostOps := ops, hostSeen := s.hostSeen ++ [.reg off (s.readOffset off)] }

/-- R18, R20 and R34: an aligned register write at an offset other than CMD sets ARG at 0x04 and IN_LEN at 0x14 and is
ignored everywhere else; D_LIMIT, so an active session, is not affected. -/
def Obligations.RegisterWritesReachOnlyArgAndInLen : Prop :=
  ∀ (s : State) (off : BitVec 8) (v : Word) (ops : List HostOp), s.hostOps = .regWrite off v :: ops →
    off.toNat % 4 = 0 → off ≠ 0x00#8 →
    step s = .next { s with
      hostOps := ops
      arg := if off = 0x04#8 then v else s.arg
      inLen := if off = 0x14#8 then v else s.inLen }

/-- R40 and R46: a host write to IN[j] within IN_CAP makes byte j read as written and marks it written since reset; every
other byte, OUT and every register stay. -/
def Obligations.HostWriteReachesOneByteOfIn : Prop :=
  ∀ (s : State) (j : Nat) (b : Byte) (ops : List HostOp), s.hostOps = .inWrite j b :: ops → j < s.capIn.toNat →
    ∃ t, step s = .next t ∧ t = { s with hostOps := ops, inMem := t.inMem, inWritten := t.inWritten } ∧
      t.inByte j = b ∧ j ∈ t.inWritten ∧
      ∀ i, i ≠ j → t.inByte i = s.inByte i ∧ (i ∈ t.inWritten ↔ i ∈ s.inWritten)

/-- R40 and R49: a host read of IN or OUT within its capacity records the byte there (entry 3), the free power-on value
where nothing has been written (entry 4), and changes nothing of the block. -/
def Obligations.HostByteReadsHaveNoSideEffect : Prop :=
  (∀ (s : State) (j : Nat) (ops : List HostOp), s.hostOps = .inRead j :: ops → j < s.capIn.toNat →
    ∃ b, step s = .next { s with hostOps := ops, hostSeen := s.hostSeen ++ [.inByte j b] } ∧
      (∀ v, s.inMem.read j = some v → b = v) ∧ (s.inMem.read j = none → b = Config.inAtPowerOn j)) ∧
  (∀ (s : State) (j : Nat) (ops : List HostOp), s.hostOps = .outRead j :: ops → j < s.capOut.toNat →
    ∃ b, step s = .next { s with hostOps := ops, hostSeen := s.hostSeen ++ [.outByte j b] } ∧
      (∀ v, s.outMem.read j = some v → b = v) ∧ (s.outMem.read j = none → b = Config.outAtPowerOn j))

/-- R19 and R40 with 93 S4 to S6: host accesses the spec does not admit are refused, each by its name. -/
def Obligations.UnadmittedHostAccessesAreRefused : Prop :=
  ∀ (s : State) (ops : List HostOp),
    (∀ (off : BitVec 8) (v : Word), off.toNat % 4 ≠ 0 →
      (s.hostOps = .regWrite off v :: ops ∨ s.hostOps = .regRead off :: ops) →
      step s = .refused (.misalignedRegisterAccess off)) ∧
    (∀ (j : Nat) (b : Byte), s.hostOps = .outWrite j b :: ops → step s = .refused (.hostWriteToOut j)) ∧
    (∀ (j : Nat) (b : Byte), s.capIn.toNat ≤ j → (s.hostOps = .inWrite j b :: ops ∨ s.hostOps = .inRead j :: ops) →
      step s = .refused (.bufferIndexOutOfRange j)) ∧
    (∀ j : Nat, s.capOut.toNat ≤ j → s.hostOps = .outRead j :: ops → step s = .refused (.bufferIndexOutOfRange j))

/-- R5 (model's form, entry 2): with no host access pending nothing happens. -/
def Obligations.NothingHappensWithoutTheHost : Prop :=
  ∀ s : State, s.hostOps = [] → step s = .next s

/-! ## Rules about the whole machine -/

/-- R37: no step but reset clears a bit of ERR_LOG, and a code newly held in an error field has its bit set. -/
def Obligations.ErrorHistoryIsSticky : Prop :=
  ∀ s t : State, step s = .next t → (∀ ops, s.hostOps ≠ .reset :: ops) →
    (∀ c, s.errLog.getLsbD c = true → t.errLog.getLsbD c = true) ∧
    (t.eErr ≠ s.eErr → t.eErr ≠ .noError → t.errLog.getLsbD t.eErr.code.toNat = true) ∧
    (t.dErr ≠ s.dErr → t.dErr ≠ .noError → t.errLog.getLsbD t.dErr.code.toNat = true) ∧
    (t.cmdErr ≠ s.cmdErr → t.cmdErr ≠ .noError → t.errLog.getLsbD t.cmdErr.code.toNat = true)

/-- R25 and R104: no command but its session's INIT moves W_POS or R_POS back, and what a command adds is whole groups, nine
at most. -/
def Obligations.CursorsOnlyMoveForward : Prop :=
  ∀ (s t : State) (i : Instr), exec i s = .next t →
    (i ≠ .encInit → ∃ k ≤ 9, t.wPos.toNat = s.wPos.toNat + 5 * k) ∧
    (i ≠ .decInit → ∃ k ≤ 9, t.rPos.toNat = s.rPos.toNat + 5 * k)

/-- R20 to R34, R36, R37, R41 and R42: who writes what, apart from reset. ARG and IN_LEN change only by a host write to their
offsets, IN only by a host write to it, and the capacity registers never. Every other register, field and memory changes
only by a write to CMD, and only of the words listed: the commands the rules name as its writers (words 1 to 5 are ENC_INIT,
ENC_SAMPLE, ENC_FINISH, DEC_INIT, DEC_SAMPLE); CMD_ERR by any word, ERR_LOG by any but ENC_INIT's, which records no error. -/
def Obligations.OnlyTheNamedWriterChangesEachRegister : Prop :=
  ∀ s t : State, step s = .next t → (∀ ops, s.hostOps ≠ .reset :: ops) →
    t.capIn = s.capIn ∧ t.capOut = s.capOut ∧
    (t.arg ≠ s.arg → ∃ v ops, s.hostOps = .regWrite 0x04#8 v :: ops) ∧
    (t.inLen ≠ s.inLen → ∃ v ops, s.hostOps = .regWrite 0x14#8 v :: ops) ∧
    (t.inMem ≠ s.inMem → ∃ j b ops, s.hostOps = .inWrite j b :: ops) ∧
    (t.result ≠ s.result → NextIsOneOf s [5#32]) ∧
    (t.eState ≠ s.eState ∨ t.eErr ≠ s.eErr → NextIsOneOf s [1#32, 2#32, 3#32]) ∧
    (t.ePrev ≠ s.ePrev ∨ t.wPos ≠ s.wPos → NextIsOneOf s [1#32, 2#32]) ∧
    (t.outLen ≠ s.outLen → NextIsOneOf s [1#32, 3#32]) ∧
    (t.outMem ≠ s.outMem → NextIsOneOf s [2#32]) ∧
    (t.dState ≠ s.dState ∨ t.dErr ≠ s.dErr → NextIsOneOf s [4#32, 5#32]) ∧
    (t.dPrev ≠ s.dPrev ∨ t.rPos ≠ s.rPos ∨ t.dDone ≠ s.dDone → NextIsOneOf s [4#32, 5#32]) ∧
    (t.dN ≠ s.dN ∨ t.dLimit ≠ s.dLimit → NextIsOneOf s [4#32]) ∧
    (t.cmdErr ≠ s.cmdErr → ∃ w ops, NextIsCommand s w ops) ∧
    (t.errLog ≠ s.errLog → ∃ w ops, NextIsCommand s w ops ∧ w ≠ 1#32)

/-- R21 and R119: a DEC_SAMPLE that ends with its session FAILED leaves RESULT, R_POS, D_PREV and D_DONE; so a failed session
never returns a partial result (R114). -/
def Obligations.FailedDecSampleReturnsNothing : Prop :=
  ∀ s t : State, exec .decSample s = .next t → t.dState = .failed →
    t.result = s.result ∧ t.rPos = s.rPos ∧ t.dPrev = s.dPrev ∧ t.dDone = s.dDone ∧ ¬DecompressValid t
end

