-- ==== Sys2Proof/Laws/Reader.lean ====
section
/-!
SUPPORT. What the bit reader and the nibble-group decoder can do (46_bit_reader.md, 44_nibble_decoder.md): one lemma for a
group, and one for a whole codeword, each naming every way it can end.
-/

namespace Sys2Proof.Machine

/-- One bit of IN: it is read where the host has written its byte, and faults elsewhere. -/
theorem brReadBit_eq (s : State) (k : Nat) :
    brReadBit s k = if k / 8 ∈ s.inWritten then .ok (streamBit s.inByte k) else .faulted (.unwrittenInRead (k / 8)) := by
  simp [brReadBit]

/-- The group whose bits are five given ones, as the reader's loop builds it. -/
theorem gather_getLsbD (b0 b1 b2 b3 b4 : Bool) (j : Nat) (hj : j < 5) :
    (0#5 ||| ((BitVec.ofBool b0).zeroExtend 5 <<< 0) ||| ((BitVec.ofBool b1).zeroExtend 5 <<< 1) |||
      ((BitVec.ofBool b2).zeroExtend 5 <<< 2) ||| ((BitVec.ofBool b3).zeroExtend 5 <<< 3) |||
      ((BitVec.ofBool b4).zeroExtend 5 <<< 4)).getLsbD j = [b0, b1, b2, b3, b4].getD j false := by
  interval_cases j <;> cases b0 <;> cases b1 <;> cases b2 <;> cases b3 <;> cases b4 <;> rfl

/-- Every way a group read can end: too few bits before D_LIMIT, the group that stands there, or the model fault at the
first unwritten byte. -/
theorem brReadGroup_cases (s : State) (pos : Nat) :
    (s.dLimit.toNat < pos + 5 ∧ brReadGroup s pos = .raised .insufficientData) ∨
    (pos + 5 ≤ s.dLimit.toNat ∧ BitsWritten s pos 5 ∧
      ∃ g, brReadGroup s pos = .ok g ∧ ∀ j < 5, streamBit s.inByte (pos + j) = g.getLsbD j) ∨
    (pos + 5 ≤ s.dLimit.toNat ∧ ∃ j, brReadGroup s pos = .faulted (.unwrittenInRead j) ∧ j ∉ s.inWritten ∧
      (j = pos / 8 ∨ pos / 8 ∈ s.inWritten ∧ j = (pos + 4) / 8)) := by
  unfold brReadGroup Config.groupW
  by_cases hl : pos + 5 > s.dLimit.toNat
  · exact .inl ⟨hl, if_pos hl⟩
  rw [if_neg hl]
  refine .inr ?_
  simp only [brGather, brReadBit_eq, Nat.add_zero]
  have d : ∀ j < 5, (pos + j) / 8 = pos / 8 ∨ (pos + j) / 8 = (pos + 4) / 8 := fun j hj => by omega
  by_cases h0 : pos / 8 ∈ s.inWritten
  · by_cases h4 : (pos + 4) / 8 ∈ s.inWritten
    · have hw : ∀ j < 5, (pos + j) / 8 ∈ s.inWritten := fun j hj => by rcases d j hj with h | h <;> rw [h] <;> assumption
      refine .inl ⟨by omega, fun q hq1 hq2 => ?_, ?_⟩
      · have := hw (q - pos) (by omega)
        rwa [show pos + (q - pos) = q by omega] at this
      · simp only [h0, h4, hw 1 (by omega), hw 2 (by omega), hw 3 (by omega), if_true, Res.bind]
        exact ⟨_, rfl, fun j hj => by rw [gather_getLsbD _ _ _ _ _ j hj]; interval_cases j <;> rfl⟩
    · refine .inr ⟨by omega, (pos + 4) / 8, ?_, h4, .inr ⟨h0, rfl⟩⟩
      have hw : ∀ j < 5, (if (pos + j) / 8 ∈ s.inWritten then Res.ok (streamBit s.inByte (pos + j))
          else .faulted (.unwrittenInRead ((pos + j) / 8))) = Res.ok (streamBit s.inByte (pos + j)) ∨
          (if (pos + j) / 8 ∈ s.inWritten then Res.ok (streamBit s.inByte (pos + j))
          else .faulted (.unwrittenInRead ((pos + j) / 8))) = .faulted (.unwrittenInRead ((pos + 4) / 8)) := by
        intro j hj
        rcases d j hj with h | h
        · left; rw [if_pos (h ▸ h0)]
        · right; rw [if_neg (h ▸ h4), h]
      simp only [h0, h4, if_true, if_false, Res.bind]
      rcases hw 1 (by omega) with h | h <;> rw [h]
      rcases hw 2 (by omega) with h | h <;> rw [h]
      rcases hw 3 (by omega) with h | h <;> rw [h]
  · exact .inr ⟨by omega, pos / 8, by simp only [h0, if_false, Res.bind], h0, .inl rfl⟩

/-- A group that fits, is written and stands there is what the read gives. -/
theorem brReadGroup_ok {s : State} {pos : Nat} {g : Group} (hf : pos + 5 ≤ s.dLimit.toNat) (hw : BitsWritten s pos 5)
    (hb : ∀ j < 5, streamBit s.inByte (pos + j) = g.getLsbD j) : brReadGroup s pos = .ok g := by
  rcases brReadGroup_cases s pos with ⟨h, _⟩ | ⟨_, _, g', h, hg⟩ | ⟨_, j, _, hj, h⟩
  · omega
  · rw [h]
    congr 1
    exact BitVec.eq_of_getLsbD_eq fun j hj => (hg j hj).symm.trans (hb j hj)
  · exact absurd (h.elim (fun e => e ▸ hw pos (by omega) (by omega)) fun e => e.2 ▸ hw (pos + 4) (by omega) (by omega)) hj

/-- Group i of the value goes 4 i bits up, above what the groups before it gave (R89). -/
theorem accumulate_toNat (u : DWord) (g : Group) {i : Nat} (hi : i < 9) (hu : u.toNat < 16 ^ i) :
    (u ||| ((groupData g).zeroExtend 64 <<< (Config.dataW * i))).toNat = u.toNat + g.toNat % 16 * 16 ^ i := by
  have hd : (groupData g).toNat = g.toNat % 16 := by simp [groupData]
  have hlt : g.toNat % 16 < 16 := Nat.mod_lt _ (by omega)
  have hp : 2 ^ (4 * i) = 16 ^ i := by rw [Nat.pow_mul]
  have h9 : 16 ^ i ≤ 16 ^ 8 := Nat.pow_le_pow_right (by omega) (by omega)
  have hm : g.toNat % 16 * 16 ^ i < 2 ^ 64 := by nlinarith
  rw [BitVec.toNat_or, BitVec.toNat_shiftLeft, BitVec.zeroExtend_eq_setWidth, BitVec.toNat_setWidth, hd,
    Nat.mod_eq_of_lt (a := g.toNat % 16) (by omega), Nat.shiftLeft_eq, Config.dataW, hp, Nat.mod_eq_of_lt hm,
    Nat.or_comm, Nat.mul_comm, ← hp, ← Nat.two_pow_add_eq_or_of_lt (by rw [hp]; exact hu)]
  omega

theorem groupsValue_append (gs : List Group) (g : Group) :
    groupsValue (gs ++ [g]) = groupsValue gs + g.toNat % 16 * 16 ^ gs.length := by
  induction gs with
  | nil => simp [groupsValue]
  | cons h gs ih =>
    rw [List.cons_append, groupsValue, ih, groupsValue, List.length_cons, Nat.pow_succ]
    ring

theorem groupsValue_lt (gs : List Group) : groupsValue gs < 16 ^ gs.length := by
  induction gs with
  | nil => simp [groupsValue]
  | cons g gs ih => rw [groupsValue, List.length_cons, Nat.pow_succ]; omega

theorem streamHolds_snoc {byteAt : Nat → Byte} {p : Nat} {gs : List Group} {g : Group} (h : StreamHolds byteAt p gs)
    (hg : ∀ j < 5, streamBit byteAt (p + 5 * gs.length + j) = g.getLsbD j) : StreamHolds byteAt p (gs ++ [g]) := by
  intro i hi j hj
  by_cases hlt : i < gs.length
  · rw [List.getElem_append_left hlt]; exact h i hlt j hj
  · have hi' : i < gs.length + 1 := by simpa using hi
    have : i = gs.length := by omega
    subst this
    rw [List.getElem_append_right (by omega)]
    simpa using hg j hj

theorem streamHolds_init {byteAt : Nat → Byte} {p : Nat} {gs : List Group} {g : Group}
    (h : StreamHolds byteAt p (gs ++ [g])) :
    StreamHolds byteAt p gs ∧ ∀ j < 5, streamBit byteAt (p + 5 * gs.length + j) = g.getLsbD j := by
  refine ⟨fun i hi j hj => ?_, fun j hj => ?_⟩
  · rw [h i (by simp; omega) j hj, List.getElem_append_left hi]
  · rw [h gs.length (by simp) j hj, List.getElem_append_right (by omega)]
    simp

theorem bitsWritten_snoc {s : State} {p n m : Nat} (h : BitsWritten s p n) (h' : BitsWritten s (p + n) m) :
    BitsWritten s p (n + m) := by
  intro q hq1 hq2
  by_cases hq : q < p + n
  · exact h q hq1 hq
  · exact h' q (by omega) (by omega)

theorem bitsWritten_mono {s : State} {p n p' n' : Nat} (h : BitsWritten s p n) (h1 : p ≤ p') (h2 : p' + n' ≤ p + n) :
    BitsWritten s p' n' := fun q hq1 hq2 => h q (by omega) (by omega)

/-- The groups before a point of a codeword: they stand at `p`, all continue, fit before D_LIMIT and are written. -/
structure ReadSoFar (s : State) (p : Nat) (gs : List Group) : Prop where
  holds : StreamHolds s.inByte p gs
  cont : AllContinue gs
  fits : gs = [] ∨ p + 5 * gs.length ≤ s.dLimit.toNat
  written : BitsWritten s p (5 * gs.length)

theorem readSoFar_nil (s : State) (p : Nat) : ReadSoFar s p [] :=
  ⟨fun i hi => absurd hi (by simp), fun g hg => absurd hg (by simp), .inl rfl, fun q h1 h2 => by simp at h2; omega⟩

/-- Continuing groups at the cursor are read one after another, into the value so far. -/
theorem ngdLoop_continue (s : State) (p : Nat) (gs : List Group) (h : ReadSoFar s p gs) (hlen : gs.length ≤ 9) :
    ∃ u : DWord, u.toNat = groupsValue gs ∧
      ngdLoop s 9 0 p 0#64 = ngdLoop s (9 - gs.length) gs.length (p + 5 * gs.length) u := by
  induction gs using List.reverseRecOn with
  | nil => exact ⟨0#64, rfl, rfl⟩
  | append_singleton gs g ih =>
    obtain ⟨holds, cont, fits, written⟩ := h
    obtain ⟨holds', hbits⟩ := streamHolds_init holds
    simp only [List.length_append, List.length_singleton] at *
    have hf : p + 5 * (gs.length + 1) ≤ s.dLimit.toNat := by simpa using fits
    obtain ⟨u, hu, heq⟩ := ih ⟨holds', fun x hx => cont x (by simp [hx]), .inr (by omega),
      bitsWritten_mono written (by omega) (by omega)⟩ (by omega)
    have hg := brReadGroup_ok (g := g) (pos := p + 5 * gs.length) (by omega) (bitsWritten_mono written (by omega) (by omega)) hbits
    refine ⟨u ||| ((groupData g).zeroExtend 64 <<< (Config.dataW * gs.length)), ?_, ?_⟩
    · rw [accumulate_toNat u g (by omega) (hu ▸ groupsValue_lt gs), hu, groupsValue_append]
    · rw [heq, show 9 - gs.length = (9 - (gs.length + 1)) + 1 by omega, ngdLoop, hg]
      simp only [Res.bind, groupCont, cont g (by simp), Bool.true_eq_false, if_false, Config.groupW]
      congr 1

/-- A codeword that stands at the cursor, fits and is written is decoded to its value (R89). -/
theorem ngdDecode_codeword (s : State) (gs : List Group) (g : Group) (h : ReadSoFar s s.rPos.toNat gs)
    (hlen : gs.length < 9) (hfit : s.rPos.toNat + 5 * (gs.length + 1) ≤ s.dLimit.toNat)
    (hw : BitsWritten s (s.rPos.toNat + 5 * gs.length) 5)
    (hb : ∀ j < 5, streamBit s.inByte (s.rPos.toNat + 5 * gs.length + j) = g.getLsbD j) (hg : g.getLsbD 4 = false) :
    ∃ u : DWord, u.toNat = groupsValue (gs ++ [g]) ∧
      ngdDecode s = .ok (u, s.rPos.toNat + 5 * (gs.length + 1)) := by
  obtain ⟨u, hu, heq⟩ := ngdLoop_continue s _ gs h (by omega)
  refine ⟨u ||| ((groupData g).zeroExtend 64 <<< (Config.dataW * gs.length)), ?_, ?_⟩
  · rw [accumulate_toNat u g (by omega) (hu ▸ groupsValue_lt gs), hu, groupsValue_append]
  · unfold ngdDecode Config.maxGroups
    rw [heq, show 9 - gs.length = (8 - gs.length) + 1 by omega, ngdLoop, brReadGroup_ok (by omega) hw hb]
    simp only [Res.bind, groupCont, hg, if_true, Config.groupW]
    congr 2

/-- Where the next group of an unfinished codeword does not fit before D_LIMIT, InsufficientData is raised (R89). -/
theorem ngdDecode_short (s : State) (gs : List Group) (h : ReadSoFar s s.rPos.toNat gs) (hlen : gs.length < 9)
    (hshort : s.dLimit.toNat < s.rPos.toNat + 5 * (gs.length + 1)) : ngdDecode s = .raised .insufficientData := by
  obtain ⟨u, hu, heq⟩ := ngdLoop_continue s _ gs h (by omega)
  unfold ngdDecode Config.maxGroups
  rw [heq, show 9 - gs.length = (8 - gs.length) + 1 by omega, ngdLoop]
  rcases brReadGroup_cases s (s.rPos.toNat + 5 * gs.length) with ⟨_, e⟩ | ⟨h', _⟩ | ⟨h', _⟩
  · rw [e]; rfl
  · omega
  · omega

/-- Nine continuing groups raise IntegerOverflow; no tenth group is read (R89). -/
theorem ngdDecode_nine (s : State) (gs : List Group) (h : ReadSoFar s s.rPos.toNat gs) (hlen : gs.length = 9) :
    ngdDecode s = .raised .integerOverflow := by
  obtain ⟨u, hu, heq⟩ := ngdLoop_continue s _ gs h (by omega)
  unfold ngdDecode Config.maxGroups
  rw [heq, hlen]
  rfl

/-- How NGD_DECODE ends after `gs` continuing groups that were read (R89, R50). -/
inductive DecodeEnd (s : State) (gs : List Group) : Prop where
  /-- A tenth group would be needed. -/
  | tenth (hlen : gs.length = 9) (heq : ngdDecode s = .raised .integerOverflow)
  /-- The next group does not fit before D_LIMIT. -/
  | short (hlen : gs.length < 9) (hfit : s.dLimit.toNat < s.rPos.toNat + 5 * (gs.length + 1))
      (heq : ngdDecode s = .raised .insufficientData)
  /-- The next group is the last one. -/
  | last (hlen : gs.length < 9) (hfit : s.rPos.toNat + 5 * (gs.length + 1) ≤ s.dLimit.toNat) (g : Group) (u : DWord)
      (hg : g.getLsbD 4 = false)
      (hb : ∀ j < 5, streamBit s.inByte (s.rPos.toNat + 5 * gs.length + j) = g.getLsbD j)
      (hw : BitsWritten s (s.rPos.toNat + 5 * gs.length) 5) (hu : u.toNat = groupsValue (gs ++ [g]))
      (heq : ngdDecode s = .ok (u, s.rPos.toNat + 5 * (gs.length + 1)))
  /-- A byte of the next group has not been written since reset. -/
  | unwritten (hlen : gs.length < 9) (hfit : s.rPos.toNat + 5 * (gs.length + 1) ≤ s.dLimit.toNat) (j : Nat)
      (hj : j ∉ s.inWritten) (hfirst : j = (s.rPos.toNat + 5 * gs.length) / 8 ∨
        (s.rPos.toNat + 5 * gs.length) / 8 ∈ s.inWritten ∧ j = (s.rPos.toNat + 5 * gs.length + 4) / 8)
      (heq : ngdDecode s = .faulted (.unwrittenInRead j))

/-- Every way NGD_DECODE can end (R89, R50). -/
theorem ngdDecode_cases (s : State) :
    ∃ gs : List Group, ReadSoFar s s.rPos.toNat gs ∧ DecodeEnd s gs := by
  suffices H : ∀ n (gs : List Group), n + gs.length = 9 → ReadSoFar s s.rPos.toNat gs → ∃ gs : List Group,
      ReadSoFar s s.rPos.toNat gs ∧ DecodeEnd s gs from H 9 [] rfl (readSoFar_nil s _)
  intro n
  induction n with
  | zero =>
    intro gs hn h
    exact ⟨gs, h, .tenth (by omega) (ngdDecode_nine s gs h (by omega))⟩
  | succ n ih =>
    intro gs hn h
    rcases brReadGroup_cases s (s.rPos.toNat + 5 * gs.length) with ⟨h', e⟩ | ⟨h', hw, g, e, hb⟩ | ⟨h', j, e, hj, hj'⟩
    · exact ⟨gs, h, .short (by omega) (by omega) (ngdDecode_short s gs h (by omega) (by omega))⟩
    · by_cases hg : g.getLsbD 4 = true
      · refine ih (gs ++ [g]) (by simp; omega) ⟨streamHolds_snoc h.holds hb, ?_, .inr (by simp; omega), ?_⟩
        · intro x hx
          rcases List.mem_append.1 hx with hx | hx
          · exact h.cont x hx
          · rwa [List.mem_singleton.1 hx]
        · have := bitsWritten_snoc h.written hw
          simpa [Nat.mul_add] using this
      · have hg : g.getLsbD 4 = false := by simpa using hg
        obtain ⟨u, hu, heq⟩ := ngdDecode_codeword s gs g h (by omega) (by omega) hw hb hg
        exact ⟨gs, h, .last (by omega) (by omega) g u hg hb hw hu heq⟩
    · refine ⟨gs, h, .unwritten (by omega) (by omega) j hj hj' ?_⟩
      obtain ⟨u, hu, heq⟩ := ngdLoop_continue s _ gs h (by omega)
      unfold ngdDecode Config.maxGroups
      rw [heq, show 9 - gs.length = (8 - gs.length) + 1 by omega, ngdLoop, e]
      rfl

end Sys2Proof.Machine
end

