-- ==== Sys2Proof/Laws/GroupEncoder.lean ====
section
/-!
SUPPORT. What the nibble-group encoder can do (43_nibble_encoder.md): its group list has continuing groups and one last
group, stands for the value, and is no longer than the value needs.
-/

namespace Sys2Proof.Machine

/-- The number of a group built from its fields (30_encoding.md R63). -/
theorem mkGroup_toNat (cont : Bool) (d : BitVec 4) : (mkGroup cont d).toNat = d.toNat + if cont then 16 else 0 := by
  revert cont d
  decide

/-- CONT of a group built from its fields. -/
theorem mkGroup_cont (cont : Bool) (d : BitVec 4) : (mkGroup cont d).getLsbD 4 = cont := by
  revert cont d
  decide

/-- The shape of a group list of NGE_GROUPS for the value `v` (R84, R87). -/
structure EncodedAs (v : Nat) (gs : List Group) (init : List Group) (last : Group) : Prop where
  split : gs = init ++ [last]
  cont : AllContinue init
  ends : last.getLsbD 4 = false
  value : groupsValue gs = v
  enough : v < 16 ^ (init.length + 1)
  least : init = [] ∨ 16 ^ init.length ≤ v

/-- What the loop of NGE_GROUPS gives when it has rounds enough (R84). -/
theorem ngeLoop_spec (fuel : Nat) (v : DWord) (h : v.toNat < 16 ^ (fuel + 1)) :
    ∃ init last, EncodedAs v.toNat (ngeLoop (fuel + 1) v) init last ∧ init.length ≤ fuel := by
  induction fuel generalizing v with
  | zero =>
    have h0 : v >>> Config.dataW = 0#64 := by
      apply BitVec.eq_of_toNat_eq
      simp [Config.dataW, Nat.shiftRight_eq_div_pow]
      omega
    refine ⟨[], mkGroup false (v.extractLsb' 0 4), ⟨?_, ?_, mkGroup_cont _ _, ?_, by simpa using h, .inl rfl⟩, by simp⟩
    · simp [ngeLoop, h0]
    · intro g hg; simp at hg
    · simp only [ngeLoop, h0, if_true, groupsValue, mkGroup_toNat]
      simp
      omega
  | succ fuel ih =>
    have hv : (v >>> Config.dataW).toNat = v.toNat / 16 := by
      simp [Config.dataW, Nat.shiftRight_eq_div_pow]
    have hd : (v.extractLsb' 0 4).toNat = v.toNat % 16 := by simp
    rw [Nat.pow_succ] at h
    by_cases h0 : v >>> Config.dataW = 0#64
    · have hz : v.toNat / 16 = 0 := by rw [← hv, h0]; rfl
      refine ⟨[], mkGroup false (v.extractLsb' 0 4), ⟨?_, ?_, mkGroup_cont _ _, ?_, by simp; omega, .inl rfl⟩, by simp⟩
      · simp [ngeLoop, h0]
      · intro g hg; simp at hg
      · simp only [ngeLoop, h0, if_true, groupsValue, mkGroup_toNat, hd]
        simp
        omega
    · have hz : v.toNat / 16 ≠ 0 := fun e => h0 (BitVec.eq_of_toNat_eq (by rw [hv, e]; rfl))
      obtain ⟨init, last, H, hl⟩ := ih (v >>> Config.dataW) (by rw [hv]; omega)
      have e : ngeLoop (fuel + 1 + 1) v = mkGroup true (v.extractLsb' 0 4) :: ngeLoop (fuel + 1) (v >>> Config.dataW) := by
        rw [ngeLoop]; simp only [h0, if_false]
      refine ⟨mkGroup true (v.extractLsb' 0 4) :: init, last, ⟨?_, ?_, H.ends, ?_, ?_, ?_⟩, by simp; omega⟩
      · rw [e, H.split]; rfl
      · intro g hg
        rcases List.mem_cons.1 hg with rfl | hg
        · exact mkGroup_cont _ _
        · exact H.cont g hg
      · rw [e, groupsValue, H.value, hv, mkGroup_toNat, hd]
        simp
        omega
      · have := H.enough
        rw [hv] at this
        rw [List.length_cons, Nat.pow_succ]
        omega
      · refine .inr ?_
        rw [List.length_cons, Nat.pow_succ]
        rcases H.least with rfl | hle
        · simp
          omega
        · rw [hv] at hle
          omega

/-- What NGE_GROUPS gives for any 64-bit value (R84). -/
theorem ngeGroups_spec (u : DWord) : ∃ init last, EncodedAs u.toNat (ngeGroups u) init last ∧ init.length ≤ 15 :=
  ngeLoop_spec 15 u u.isLt

end Sys2Proof.Machine
end

