-- ==== Sys2Proof/Laws/State.lean ====
section
/-!
SUPPORT. What each named update of the state leaves in each field: one lemma per field and update, true by unfolding, so
that no proof unfolds an update.
-/

namespace Sys2Proof.Machine

/-! ### beginCommand -/

@[simp] theorem beginCommand_arg (s : State) : s.beginCommand.arg = s.arg := rfl
@[simp] theorem beginCommand_result (s : State) : s.beginCommand.result = s.result := rfl
@[simp] theorem beginCommand_eState (s : State) : s.beginCommand.eState = s.eState := rfl
@[simp] theorem beginCommand_eErr (s : State) : s.beginCommand.eErr = s.eErr := rfl
@[simp] theorem beginCommand_ePrev (s : State) : s.beginCommand.ePrev = s.ePrev := rfl
@[simp] theorem beginCommand_wPos (s : State) : s.beginCommand.wPos = s.wPos := rfl
@[simp] theorem beginCommand_outLen (s : State) : s.beginCommand.outLen = s.outLen := rfl
@[simp] theorem beginCommand_dState (s : State) : s.beginCommand.dState = s.dState := rfl
@[simp] theorem beginCommand_dErr (s : State) : s.beginCommand.dErr = s.dErr := rfl
@[simp] theorem beginCommand_dPrev (s : State) : s.beginCommand.dPrev = s.dPrev := rfl
@[simp] theorem beginCommand_rPos (s : State) : s.beginCommand.rPos = s.rPos := rfl
@[simp] theorem beginCommand_dLimit (s : State) : s.beginCommand.dLimit = s.dLimit := rfl
@[simp] theorem beginCommand_dN (s : State) : s.beginCommand.dN = s.dN := rfl
@[simp] theorem beginCommand_dDone (s : State) : s.beginCommand.dDone = s.dDone := rfl
@[simp] theorem beginCommand_inLen (s : State) : s.beginCommand.inLen = s.inLen := rfl
@[simp] theorem beginCommand_cmdErr (s : State) : s.beginCommand.cmdErr = .noError := rfl
@[simp] theorem beginCommand_errLog (s : State) : s.beginCommand.errLog = s.errLog := rfl
@[simp] theorem beginCommand_capIn (s : State) : s.beginCommand.capIn = s.capIn := rfl
@[simp] theorem beginCommand_capOut (s : State) : s.beginCommand.capOut = s.capOut := rfl
@[simp] theorem beginCommand_inMem (s : State) : s.beginCommand.inMem = s.inMem := rfl
@[simp] theorem beginCommand_outMem (s : State) : s.beginCommand.outMem = s.outMem := rfl
@[simp] theorem beginCommand_inWritten (s : State) : s.beginCommand.inWritten = s.inWritten := rfl
@[simp] theorem beginCommand_hostOps (s : State) : s.beginCommand.hostOps = s.hostOps := rfl
@[simp] theorem beginCommand_hostSeen (s : State) : s.beginCommand.hostSeen = s.hostSeen := rfl

/-! ### logError -/

@[simp] theorem logError_arg (s : State) (c : ErrCode) : (s.logError c).arg = s.arg := rfl
@[simp] theorem logError_result (s : State) (c : ErrCode) : (s.logError c).result = s.result := rfl
@[simp] theorem logError_eState (s : State) (c : ErrCode) : (s.logError c).eState = s.eState := rfl
@[simp] theorem logError_eErr (s : State) (c : ErrCode) : (s.logError c).eErr = s.eErr := rfl
@[simp] theorem logError_ePrev (s : State) (c : ErrCode) : (s.logError c).ePrev = s.ePrev := rfl
@[simp] theorem logError_wPos (s : State) (c : ErrCode) : (s.logError c).wPos = s.wPos := rfl
@[simp] theorem logError_outLen (s : State) (c : ErrCode) : (s.logError c).outLen = s.outLen := rfl
@[simp] theorem logError_dState (s : State) (c : ErrCode) : (s.logError c).dState = s.dState := rfl
@[simp] theorem logError_dErr (s : State) (c : ErrCode) : (s.logError c).dErr = s.dErr := rfl
@[simp] theorem logError_dPrev (s : State) (c : ErrCode) : (s.logError c).dPrev = s.dPrev := rfl
@[simp] theorem logError_rPos (s : State) (c : ErrCode) : (s.logError c).rPos = s.rPos := rfl
@[simp] theorem logError_dLimit (s : State) (c : ErrCode) : (s.logError c).dLimit = s.dLimit := rfl
@[simp] theorem logError_dN (s : State) (c : ErrCode) : (s.logError c).dN = s.dN := rfl
@[simp] theorem logError_dDone (s : State) (c : ErrCode) : (s.logError c).dDone = s.dDone := rfl
@[simp] theorem logError_inLen (s : State) (c : ErrCode) : (s.logError c).inLen = s.inLen := rfl
@[simp] theorem logError_cmdErr (s : State) (c : ErrCode) : (s.logError c).cmdErr = s.cmdErr := rfl
@[simp] theorem logError_errLog (s : State) (c : ErrCode) : (s.logError c).errLog = s.errLog ||| c.logBit := rfl
@[simp] theorem logError_capIn (s : State) (c : ErrCode) : (s.logError c).capIn = s.capIn := rfl
@[simp] theorem logError_capOut (s : State) (c : ErrCode) : (s.logError c).capOut = s.capOut := rfl
@[simp] theorem logError_inMem (s : State) (c : ErrCode) : (s.logError c).inMem = s.inMem := rfl
@[simp] theorem logError_outMem (s : State) (c : ErrCode) : (s.logError c).outMem = s.outMem := rfl
@[simp] theorem logError_inWritten (s : State) (c : ErrCode) : (s.logError c).inWritten = s.inWritten := rfl
@[simp] theorem logError_hostOps (s : State) (c : ErrCode) : (s.logError c).hostOps = s.hostOps := rfl
@[simp] theorem logError_hostSeen (s : State) (c : ErrCode) : (s.logError c).hostSeen = s.hostSeen := rfl

/-! ### raise_enc -/

@[simp] theorem raise_enc_arg (s : State) (c : ErrCode) : (s.raise .enc c).arg = s.arg := rfl
@[simp] theorem raise_enc_result (s : State) (c : ErrCode) : (s.raise .enc c).result = s.result := rfl
@[simp] theorem raise_enc_eState (s : State) (c : ErrCode) : (s.raise .enc c).eState = .failed := rfl
@[simp] theorem raise_enc_eErr (s : State) (c : ErrCode) : (s.raise .enc c).eErr = c := rfl
@[simp] theorem raise_enc_ePrev (s : State) (c : ErrCode) : (s.raise .enc c).ePrev = s.ePrev := rfl
@[simp] theorem raise_enc_wPos (s : State) (c : ErrCode) : (s.raise .enc c).wPos = s.wPos := rfl
@[simp] theorem raise_enc_outLen (s : State) (c : ErrCode) : (s.raise .enc c).outLen = s.outLen := rfl
@[simp] theorem raise_enc_dState (s : State) (c : ErrCode) : (s.raise .enc c).dState = s.dState := rfl
@[simp] theorem raise_enc_dErr (s : State) (c : ErrCode) : (s.raise .enc c).dErr = s.dErr := rfl
@[simp] theorem raise_enc_dPrev (s : State) (c : ErrCode) : (s.raise .enc c).dPrev = s.dPrev := rfl
@[simp] theorem raise_enc_rPos (s : State) (c : ErrCode) : (s.raise .enc c).rPos = s.rPos := rfl
@[simp] theorem raise_enc_dLimit (s : State) (c : ErrCode) : (s.raise .enc c).dLimit = s.dLimit := rfl
@[simp] theorem raise_enc_dN (s : State) (c : ErrCode) : (s.raise .enc c).dN = s.dN := rfl
@[simp] theorem raise_enc_dDone (s : State) (c : ErrCode) : (s.raise .enc c).dDone = s.dDone := rfl
@[simp] theorem raise_enc_inLen (s : State) (c : ErrCode) : (s.raise .enc c).inLen = s.inLen := rfl
@[simp] theorem raise_enc_cmdErr (s : State) (c : ErrCode) : (s.raise .enc c).cmdErr = s.cmdErr := rfl
@[simp] theorem raise_enc_errLog (s : State) (c : ErrCode) : (s.raise .enc c).errLog = s.errLog ||| c.logBit := rfl
@[simp] theorem raise_enc_capIn (s : State) (c : ErrCode) : (s.raise .enc c).capIn = s.capIn := rfl
@[simp] theorem raise_enc_capOut (s : State) (c : ErrCode) : (s.raise .enc c).capOut = s.capOut := rfl
@[simp] theorem raise_enc_inMem (s : State) (c : ErrCode) : (s.raise .enc c).inMem = s.inMem := rfl
@[simp] theorem raise_enc_outMem (s : State) (c : ErrCode) : (s.raise .enc c).outMem = s.outMem := rfl
@[simp] theorem raise_enc_inWritten (s : State) (c : ErrCode) : (s.raise .enc c).inWritten = s.inWritten := rfl
@[simp] theorem raise_enc_hostOps (s : State) (c : ErrCode) : (s.raise .enc c).hostOps = s.hostOps := rfl
@[simp] theorem raise_enc_hostSeen (s : State) (c : ErrCode) : (s.raise .enc c).hostSeen = s.hostSeen := rfl

/-! ### raise_dec -/

@[simp] theorem raise_dec_arg (s : State) (c : ErrCode) : (s.raise .dec c).arg = s.arg := rfl
@[simp] theorem raise_dec_result (s : State) (c : ErrCode) : (s.raise .dec c).result = s.result := rfl
@[simp] theorem raise_dec_eState (s : State) (c : ErrCode) : (s.raise .dec c).eState = s.eState := rfl
@[simp] theorem raise_dec_eErr (s : State) (c : ErrCode) : (s.raise .dec c).eErr = s.eErr := rfl
@[simp] theorem raise_dec_ePrev (s : State) (c : ErrCode) : (s.raise .dec c).ePrev = s.ePrev := rfl
@[simp] theorem raise_dec_wPos (s : State) (c : ErrCode) : (s.raise .dec c).wPos = s.wPos := rfl
@[simp] theorem raise_dec_outLen (s : State) (c : ErrCode) : (s.raise .dec c).outLen = s.outLen := rfl
@[simp] theorem raise_dec_dState (s : State) (c : ErrCode) : (s.raise .dec c).dState = .failed := rfl
@[simp] theorem raise_dec_dErr (s : State) (c : ErrCode) : (s.raise .dec c).dErr = c := rfl
@[simp] theorem raise_dec_dPrev (s : State) (c : ErrCode) : (s.raise .dec c).dPrev = s.dPrev := rfl
@[simp] theorem raise_dec_rPos (s : State) (c : ErrCode) : (s.raise .dec c).rPos = s.rPos := rfl
@[simp] theorem raise_dec_dLimit (s : State) (c : ErrCode) : (s.raise .dec c).dLimit = s.dLimit := rfl
@[simp] theorem raise_dec_dN (s : State) (c : ErrCode) : (s.raise .dec c).dN = s.dN := rfl
@[simp] theorem raise_dec_dDone (s : State) (c : ErrCode) : (s.raise .dec c).dDone = s.dDone := rfl
@[simp] theorem raise_dec_inLen (s : State) (c : ErrCode) : (s.raise .dec c).inLen = s.inLen := rfl
@[simp] theorem raise_dec_cmdErr (s : State) (c : ErrCode) : (s.raise .dec c).cmdErr = s.cmdErr := rfl
@[simp] theorem raise_dec_errLog (s : State) (c : ErrCode) : (s.raise .dec c).errLog = s.errLog ||| c.logBit := rfl
@[simp] theorem raise_dec_capIn (s : State) (c : ErrCode) : (s.raise .dec c).capIn = s.capIn := rfl
@[simp] theorem raise_dec_capOut (s : State) (c : ErrCode) : (s.raise .dec c).capOut = s.capOut := rfl
@[simp] theorem raise_dec_inMem (s : State) (c : ErrCode) : (s.raise .dec c).inMem = s.inMem := rfl
@[simp] theorem raise_dec_outMem (s : State) (c : ErrCode) : (s.raise .dec c).outMem = s.outMem := rfl
@[simp] theorem raise_dec_inWritten (s : State) (c : ErrCode) : (s.raise .dec c).inWritten = s.inWritten := rfl
@[simp] theorem raise_dec_hostOps (s : State) (c : ErrCode) : (s.raise .dec c).hostOps = s.hostOps := rfl
@[simp] theorem raise_dec_hostSeen (s : State) (c : ErrCode) : (s.raise .dec c).hostSeen = s.hostSeen := rfl

/-! ### raiseIllegalCommand -/

@[simp] theorem raiseIllegalCommand_arg (s : State) : s.raiseIllegalCommand.arg = s.arg := rfl
@[simp] theorem raiseIllegalCommand_result (s : State) : s.raiseIllegalCommand.result = s.result := rfl
@[simp] theorem raiseIllegalCommand_eState (s : State) : s.raiseIllegalCommand.eState = s.eState := rfl
@[simp] theorem raiseIllegalCommand_eErr (s : State) : s.raiseIllegalCommand.eErr = s.eErr := rfl
@[simp] theorem raiseIllegalCommand_ePrev (s : State) : s.raiseIllegalCommand.ePrev = s.ePrev := rfl
@[simp] theorem raiseIllegalCommand_wPos (s : State) : s.raiseIllegalCommand.wPos = s.wPos := rfl
@[simp] theorem raiseIllegalCommand_outLen (s : State) : s.raiseIllegalCommand.outLen = s.outLen := rfl
@[simp] theorem raiseIllegalCommand_dState (s : State) : s.raiseIllegalCommand.dState = s.dState := rfl
@[simp] theorem raiseIllegalCommand_dErr (s : State) : s.raiseIllegalCommand.dErr = s.dErr := rfl
@[simp] theorem raiseIllegalCommand_dPrev (s : State) : s.raiseIllegalCommand.dPrev = s.dPrev := rfl
@[simp] theorem raiseIllegalCommand_rPos (s : State) : s.raiseIllegalCommand.rPos = s.rPos := rfl
@[simp] theorem raiseIllegalCommand_dLimit (s : State) : s.raiseIllegalCommand.dLimit = s.dLimit := rfl
@[simp] theorem raiseIllegalCommand_dN (s : State) : s.raiseIllegalCommand.dN = s.dN := rfl
@[simp] theorem raiseIllegalCommand_dDone (s : State) : s.raiseIllegalCommand.dDone = s.dDone := rfl
@[simp] theorem raiseIllegalCommand_inLen (s : State) : s.raiseIllegalCommand.inLen = s.inLen := rfl
@[simp] theorem raiseIllegalCommand_cmdErr (s : State) : s.raiseIllegalCommand.cmdErr = .illegalCommand := rfl
@[simp] theorem raiseIllegalCommand_errLog (s : State) : s.raiseIllegalCommand.errLog = s.errLog ||| ErrCode.illegalCommand.logBit := rfl
@[simp] theorem raiseIllegalCommand_capIn (s : State) : s.raiseIllegalCommand.capIn = s.capIn := rfl
@[simp] theorem raiseIllegalCommand_capOut (s : State) : s.raiseIllegalCommand.capOut = s.capOut := rfl
@[simp] theorem raiseIllegalCommand_inMem (s : State) : s.raiseIllegalCommand.inMem = s.inMem := rfl
@[simp] theorem raiseIllegalCommand_outMem (s : State) : s.raiseIllegalCommand.outMem = s.outMem := rfl
@[simp] theorem raiseIllegalCommand_inWritten (s : State) : s.raiseIllegalCommand.inWritten = s.inWritten := rfl
@[simp] theorem raiseIllegalCommand_hostOps (s : State) : s.raiseIllegalCommand.hostOps = s.hostOps := rfl
@[simp] theorem raiseIllegalCommand_hostSeen (s : State) : s.raiseIllegalCommand.hostSeen = s.hostSeen := rfl

/-! ### openEncoder -/

@[simp] theorem openEncoder_arg (s : State) : s.openEncoder.arg = s.arg := rfl
@[simp] theorem openEncoder_result (s : State) : s.openEncoder.result = s.result := rfl
@[simp] theorem openEncoder_eState (s : State) : s.openEncoder.eState = .opened := rfl
@[simp] theorem openEncoder_eErr (s : State) : s.openEncoder.eErr = .noError := rfl
@[simp] theorem openEncoder_ePrev (s : State) : s.openEncoder.ePrev = s.ePrev := rfl
@[simp] theorem openEncoder_wPos (s : State) : s.openEncoder.wPos = s.wPos := rfl
@[simp] theorem openEncoder_outLen (s : State) : s.openEncoder.outLen = s.outLen := rfl
@[simp] theorem openEncoder_dState (s : State) : s.openEncoder.dState = s.dState := rfl
@[simp] theorem openEncoder_dErr (s : State) : s.openEncoder.dErr = s.dErr := rfl
@[simp] theorem openEncoder_dPrev (s : State) : s.openEncoder.dPrev = s.dPrev := rfl
@[simp] theorem openEncoder_rPos (s : State) : s.openEncoder.rPos = s.rPos := rfl
@[simp] theorem openEncoder_dLimit (s : State) : s.openEncoder.dLimit = s.dLimit := rfl
@[simp] theorem openEncoder_dN (s : State) : s.openEncoder.dN = s.dN := rfl
@[simp] theorem openEncoder_dDone (s : State) : s.openEncoder.dDone = s.dDone := rfl
@[simp] theorem openEncoder_inLen (s : State) : s.openEncoder.inLen = s.inLen := rfl
@[simp] theorem openEncoder_cmdErr (s : State) : s.openEncoder.cmdErr = s.cmdErr := rfl
@[simp] theorem openEncoder_errLog (s : State) : s.openEncoder.errLog = s.errLog := rfl
@[simp] theorem openEncoder_capIn (s : State) : s.openEncoder.capIn = s.capIn := rfl
@[simp] theorem openEncoder_capOut (s : State) : s.openEncoder.capOut = s.capOut := rfl
@[simp] theorem openEncoder_inMem (s : State) : s.openEncoder.inMem = s.inMem := rfl
@[simp] theorem openEncoder_outMem (s : State) : s.openEncoder.outMem = s.outMem := rfl
@[simp] theorem openEncoder_inWritten (s : State) : s.openEncoder.inWritten = s.inWritten := rfl
@[simp] theorem openEncoder_hostOps (s : State) : s.openEncoder.hostOps = s.hostOps := rfl
@[simp] theorem openEncoder_hostSeen (s : State) : s.openEncoder.hostSeen = s.hostSeen := rfl

/-! ### bwInit -/

@[simp] theorem bwInit_arg (s : State) : s.bwInit.arg = s.arg := rfl
@[simp] theorem bwInit_result (s : State) : s.bwInit.result = s.result := rfl
@[simp] theorem bwInit_eState (s : State) : s.bwInit.eState = s.eState := rfl
@[simp] theorem bwInit_eErr (s : State) : s.bwInit.eErr = s.eErr := rfl
@[simp] theorem bwInit_ePrev (s : State) : s.bwInit.ePrev = s.ePrev := rfl
@[simp] theorem bwInit_wPos (s : State) : s.bwInit.wPos = 0#64 := rfl
@[simp] theorem bwInit_outLen (s : State) : s.bwInit.outLen = 0#32 := rfl
@[simp] theorem bwInit_dState (s : State) : s.bwInit.dState = s.dState := rfl
@[simp] theorem bwInit_dErr (s : State) : s.bwInit.dErr = s.dErr := rfl
@[simp] theorem bwInit_dPrev (s : State) : s.bwInit.dPrev = s.dPrev := rfl
@[simp] theorem bwInit_rPos (s : State) : s.bwInit.rPos = s.rPos := rfl
@[simp] theorem bwInit_dLimit (s : State) : s.bwInit.dLimit = s.dLimit := rfl
@[simp] theorem bwInit_dN (s : State) : s.bwInit.dN = s.dN := rfl
@[simp] theorem bwInit_dDone (s : State) : s.bwInit.dDone = s.dDone := rfl
@[simp] theorem bwInit_inLen (s : State) : s.bwInit.inLen = s.inLen := rfl
@[simp] theorem bwInit_cmdErr (s : State) : s.bwInit.cmdErr = s.cmdErr := rfl
@[simp] theorem bwInit_errLog (s : State) : s.bwInit.errLog = s.errLog := rfl
@[simp] theorem bwInit_capIn (s : State) : s.bwInit.capIn = s.capIn := rfl
@[simp] theorem bwInit_capOut (s : State) : s.bwInit.capOut = s.capOut := rfl
@[simp] theorem bwInit_inMem (s : State) : s.bwInit.inMem = s.inMem := rfl
@[simp] theorem bwInit_outMem (s : State) : s.bwInit.outMem = s.outMem := rfl
@[simp] theorem bwInit_inWritten (s : State) : s.bwInit.inWritten = s.inWritten := rfl
@[simp] theorem bwInit_hostOps (s : State) : s.bwInit.hostOps = s.hostOps := rfl
@[simp] theorem bwInit_hostSeen (s : State) : s.bwInit.hostSeen = s.hostSeen := rfl

/-! ### bwFinish -/

@[simp] theorem bwFinish_arg (s : State) : s.bwFinish.arg = s.arg := rfl
@[simp] theorem bwFinish_result (s : State) : s.bwFinish.result = s.result := rfl
@[simp] theorem bwFinish_eState (s : State) : s.bwFinish.eState = s.eState := rfl
@[simp] theorem bwFinish_eErr (s : State) : s.bwFinish.eErr = s.eErr := rfl
@[simp] theorem bwFinish_ePrev (s : State) : s.bwFinish.ePrev = s.ePrev := rfl
@[simp] theorem bwFinish_wPos (s : State) : s.bwFinish.wPos = s.wPos := rfl
@[simp] theorem bwFinish_outLen (s : State) : s.bwFinish.outLen = BitVec.ofNat 32 (ceilDiv s.wPos.toNat 8) := rfl
@[simp] theorem bwFinish_dState (s : State) : s.bwFinish.dState = s.dState := rfl
@[simp] theorem bwFinish_dErr (s : State) : s.bwFinish.dErr = s.dErr := rfl
@[simp] theorem bwFinish_dPrev (s : State) : s.bwFinish.dPrev = s.dPrev := rfl
@[simp] theorem bwFinish_rPos (s : State) : s.bwFinish.rPos = s.rPos := rfl
@[simp] theorem bwFinish_dLimit (s : State) : s.bwFinish.dLimit = s.dLimit := rfl
@[simp] theorem bwFinish_dN (s : State) : s.bwFinish.dN = s.dN := rfl
@[simp] theorem bwFinish_dDone (s : State) : s.bwFinish.dDone = s.dDone := rfl
@[simp] theorem bwFinish_inLen (s : State) : s.bwFinish.inLen = s.inLen := rfl
@[simp] theorem bwFinish_cmdErr (s : State) : s.bwFinish.cmdErr = s.cmdErr := rfl
@[simp] theorem bwFinish_errLog (s : State) : s.bwFinish.errLog = s.errLog := rfl
@[simp] theorem bwFinish_capIn (s : State) : s.bwFinish.capIn = s.capIn := rfl
@[simp] theorem bwFinish_capOut (s : State) : s.bwFinish.capOut = s.capOut := rfl
@[simp] theorem bwFinish_inMem (s : State) : s.bwFinish.inMem = s.inMem := rfl
@[simp] theorem bwFinish_outMem (s : State) : s.bwFinish.outMem = s.outMem := rfl
@[simp] theorem bwFinish_inWritten (s : State) : s.bwFinish.inWritten = s.inWritten := rfl
@[simp] theorem bwFinish_hostOps (s : State) : s.bwFinish.hostOps = s.hostOps := rfl
@[simp] theorem bwFinish_hostSeen (s : State) : s.bwFinish.hostSeen = s.hostSeen := rfl

/-! ### brInit -/

@[simp] theorem brInit_arg (s : State) (len : Word) : (s.brInit len).arg = s.arg := rfl
@[simp] theorem brInit_result (s : State) (len : Word) : (s.brInit len).result = s.result := rfl
@[simp] theorem brInit_eState (s : State) (len : Word) : (s.brInit len).eState = s.eState := rfl
@[simp] theorem brInit_eErr (s : State) (len : Word) : (s.brInit len).eErr = s.eErr := rfl
@[simp] theorem brInit_ePrev (s : State) (len : Word) : (s.brInit len).ePrev = s.ePrev := rfl
@[simp] theorem brInit_wPos (s : State) (len : Word) : (s.brInit len).wPos = s.wPos := rfl
@[simp] theorem brInit_outLen (s : State) (len : Word) : (s.brInit len).outLen = s.outLen := rfl
@[simp] theorem brInit_dState (s : State) (len : Word) : (s.brInit len).dState = s.dState := rfl
@[simp] theorem brInit_dErr (s : State) (len : Word) : (s.brInit len).dErr = s.dErr := rfl
@[simp] theorem brInit_dPrev (s : State) (len : Word) : (s.brInit len).dPrev = s.dPrev := rfl
@[simp] theorem brInit_rPos (s : State) (len : Word) : (s.brInit len).rPos = 0#64 := rfl
@[simp] theorem brInit_dLimit (s : State) (len : Word) : (s.brInit len).dLimit = BitVec.ofNat 64 (8 * len.toNat) := rfl
@[simp] theorem brInit_dN (s : State) (len : Word) : (s.brInit len).dN = s.dN := rfl
@[simp] theorem brInit_dDone (s : State) (len : Word) : (s.brInit len).dDone = s.dDone := rfl
@[simp] theorem brInit_inLen (s : State) (len : Word) : (s.brInit len).inLen = s.inLen := rfl
@[simp] theorem brInit_cmdErr (s : State) (len : Word) : (s.brInit len).cmdErr = s.cmdErr := rfl
@[simp] theorem brInit_errLog (s : State) (len : Word) : (s.brInit len).errLog = s.errLog := rfl
@[simp] theorem brInit_capIn (s : State) (len : Word) : (s.brInit len).capIn = s.capIn := rfl
@[simp] theorem brInit_capOut (s : State) (len : Word) : (s.brInit len).capOut = s.capOut := rfl
@[simp] theorem brInit_inMem (s : State) (len : Word) : (s.brInit len).inMem = s.inMem := rfl
@[simp] theorem brInit_outMem (s : State) (len : Word) : (s.brInit len).outMem = s.outMem := rfl
@[simp] theorem brInit_inWritten (s : State) (len : Word) : (s.brInit len).inWritten = s.inWritten := rfl
@[simp] theorem brInit_hostOps (s : State) (len : Word) : (s.brInit len).hostOps = s.hostOps := rfl
@[simp] theorem brInit_hostSeen (s : State) (len : Word) : (s.brInit len).hostSeen = s.hostSeen := rfl

/-! ### decInitWrites -/

@[simp] theorem decInitWrites_arg (s : State) : s.decInitWrites.arg = s.arg := rfl
@[simp] theorem decInitWrites_result (s : State) : s.decInitWrites.result = s.result := rfl
@[simp] theorem decInitWrites_eState (s : State) : s.decInitWrites.eState = s.eState := rfl
@[simp] theorem decInitWrites_eErr (s : State) : s.decInitWrites.eErr = s.eErr := rfl
@[simp] theorem decInitWrites_ePrev (s : State) : s.decInitWrites.ePrev = s.ePrev := rfl
@[simp] theorem decInitWrites_wPos (s : State) : s.decInitWrites.wPos = s.wPos := rfl
@[simp] theorem decInitWrites_outLen (s : State) : s.decInitWrites.outLen = s.outLen := rfl
@[simp] theorem decInitWrites_dState (s : State) : s.decInitWrites.dState = s.dState := rfl
@[simp] theorem decInitWrites_dErr (s : State) : s.decInitWrites.dErr = .noError := rfl
@[simp] theorem decInitWrites_dPrev (s : State) : s.decInitWrites.dPrev = 0#32 := rfl
@[simp] theorem decInitWrites_rPos (s : State) : s.decInitWrites.rPos = 0#64 := rfl
@[simp] theorem decInitWrites_dLimit (s : State) : s.decInitWrites.dLimit = 0#64 := rfl
@[simp] theorem decInitWrites_dN (s : State) : s.decInitWrites.dN = s.arg := rfl
@[simp] theorem decInitWrites_dDone (s : State) : s.decInitWrites.dDone = 0#32 := rfl
@[simp] theorem decInitWrites_inLen (s : State) : s.decInitWrites.inLen = s.inLen := rfl
@[simp] theorem decInitWrites_cmdErr (s : State) : s.decInitWrites.cmdErr = s.cmdErr := rfl
@[simp] theorem decInitWrites_errLog (s : State) : s.decInitWrites.errLog = s.errLog := rfl
@[simp] theorem decInitWrites_capIn (s : State) : s.decInitWrites.capIn = s.capIn := rfl
@[simp] theorem decInitWrites_capOut (s : State) : s.decInitWrites.capOut = s.capOut := rfl
@[simp] theorem decInitWrites_inMem (s : State) : s.decInitWrites.inMem = s.inMem := rfl
@[simp] theorem decInitWrites_outMem (s : State) : s.decInitWrites.outMem = s.outMem := rfl
@[simp] theorem decInitWrites_inWritten (s : State) : s.decInitWrites.inWritten = s.inWritten := rfl
@[simp] theorem decInitWrites_hostOps (s : State) : s.decInitWrites.hostOps = s.hostOps := rfl
@[simp] theorem decInitWrites_hostSeen (s : State) : s.decInitWrites.hostSeen = s.hostSeen := rfl

/-! ### commitSample -/

@[simp] theorem commitSample_arg (s : State) (pos : Nat) (smp : Word) : (s.commitSample pos smp).arg = s.arg := rfl
@[simp] theorem commitSample_result (s : State) (pos : Nat) (smp : Word) : (s.commitSample pos smp).result = smp := rfl
@[simp] theorem commitSample_eState (s : State) (pos : Nat) (smp : Word) : (s.commitSample pos smp).eState = s.eState := rfl
@[simp] theorem commitSample_eErr (s : State) (pos : Nat) (smp : Word) : (s.commitSample pos smp).eErr = s.eErr := rfl
@[simp] theorem commitSample_ePrev (s : State) (pos : Nat) (smp : Word) : (s.commitSample pos smp).ePrev = s.ePrev := rfl
@[simp] theorem commitSample_wPos (s : State) (pos : Nat) (smp : Word) : (s.commitSample pos smp).wPos = s.wPos := rfl
@[simp] theorem commitSample_outLen (s : State) (pos : Nat) (smp : Word) : (s.commitSample pos smp).outLen = s.outLen := rfl
@[simp] theorem commitSample_dState (s : State) (pos : Nat) (smp : Word) : (s.commitSample pos smp).dState = if ((s.dDone + 1#32).toNat : Int) = s.dN.toInt then .complete else s.dState := rfl
@[simp] theorem commitSample_dErr (s : State) (pos : Nat) (smp : Word) : (s.commitSample pos smp).dErr = s.dErr := rfl
@[simp] theorem commitSample_dPrev (s : State) (pos : Nat) (smp : Word) : (s.commitSample pos smp).dPrev = smp := rfl
@[simp] theorem commitSample_rPos (s : State) (pos : Nat) (smp : Word) : (s.commitSample pos smp).rPos = BitVec.ofNat 64 pos := rfl
@[simp] theorem commitSample_dLimit (s : State) (pos : Nat) (smp : Word) : (s.commitSample pos smp).dLimit = s.dLimit := rfl
@[simp] theorem commitSample_dN (s : State) (pos : Nat) (smp : Word) : (s.commitSample pos smp).dN = s.dN := rfl
@[simp] theorem commitSample_dDone (s : State) (pos : Nat) (smp : Word) : (s.commitSample pos smp).dDone = s.dDone + 1#32 := rfl
@[simp] theorem commitSample_inLen (s : State) (pos : Nat) (smp : Word) : (s.commitSample pos smp).inLen = s.inLen := rfl
@[simp] theorem commitSample_cmdErr (s : State) (pos : Nat) (smp : Word) : (s.commitSample pos smp).cmdErr = s.cmdErr := rfl
@[simp] theorem commitSample_errLog (s : State) (pos : Nat) (smp : Word) : (s.commitSample pos smp).errLog = s.errLog := rfl
@[simp] theorem commitSample_capIn (s : State) (pos : Nat) (smp : Word) : (s.commitSample pos smp).capIn = s.capIn := rfl
@[simp] theorem commitSample_capOut (s : State) (pos : Nat) (smp : Word) : (s.commitSample pos smp).capOut = s.capOut := rfl
@[simp] theorem commitSample_inMem (s : State) (pos : Nat) (smp : Word) : (s.commitSample pos smp).inMem = s.inMem := rfl
@[simp] theorem commitSample_outMem (s : State) (pos : Nat) (smp : Word) : (s.commitSample pos smp).outMem = s.outMem := rfl
@[simp] theorem commitSample_inWritten (s : State) (pos : Nat) (smp : Word) : (s.commitSample pos smp).inWritten = s.inWritten := rfl
@[simp] theorem commitSample_hostOps (s : State) (pos : Nat) (smp : Word) : (s.commitSample pos smp).hostOps = s.hostOps := rfl
@[simp] theorem commitSample_hostSeen (s : State) (pos : Nat) (smp : Word) : (s.commitSample pos smp).hostSeen = s.hostSeen := rfl

/-! ### hostWriteIn -/

@[simp] theorem hostWriteIn_arg (s : State) (j : Nat) (b : Byte) : (s.hostWriteIn j b).arg = s.arg := rfl
@[simp] theorem hostWriteIn_result (s : State) (j : Nat) (b : Byte) : (s.hostWriteIn j b).result = s.result := rfl
@[simp] theorem hostWriteIn_eState (s : State) (j : Nat) (b : Byte) : (s.hostWriteIn j b).eState = s.eState := rfl
@[simp] theorem hostWriteIn_eErr (s : State) (j : Nat) (b : Byte) : (s.hostWriteIn j b).eErr = s.eErr := rfl
@[simp] theorem hostWriteIn_ePrev (s : State) (j : Nat) (b : Byte) : (s.hostWriteIn j b).ePrev = s.ePrev := rfl
@[simp] theorem hostWriteIn_wPos (s : State) (j : Nat) (b : Byte) : (s.hostWriteIn j b).wPos = s.wPos := rfl
@[simp] theorem hostWriteIn_outLen (s : State) (j : Nat) (b : Byte) : (s.hostWriteIn j b).outLen = s.outLen := rfl
@[simp] theorem hostWriteIn_dState (s : State) (j : Nat) (b : Byte) : (s.hostWriteIn j b).dState = s.dState := rfl
@[simp] theorem hostWriteIn_dErr (s : State) (j : Nat) (b : Byte) : (s.hostWriteIn j b).dErr = s.dErr := rfl
@[simp] theorem hostWriteIn_dPrev (s : State) (j : Nat) (b : Byte) : (s.hostWriteIn j b).dPrev = s.dPrev := rfl
@[simp] theorem hostWriteIn_rPos (s : State) (j : Nat) (b : Byte) : (s.hostWriteIn j b).rPos = s.rPos := rfl
@[simp] theorem hostWriteIn_dLimit (s : State) (j : Nat) (b : Byte) : (s.hostWriteIn j b).dLimit = s.dLimit := rfl
@[simp] theorem hostWriteIn_dN (s : State) (j : Nat) (b : Byte) : (s.hostWriteIn j b).dN = s.dN := rfl
@[simp] theorem hostWriteIn_dDone (s : State) (j : Nat) (b : Byte) : (s.hostWriteIn j b).dDone = s.dDone := rfl
@[simp] theorem hostWriteIn_inLen (s : State) (j : Nat) (b : Byte) : (s.hostWriteIn j b).inLen = s.inLen := rfl
@[simp] theorem hostWriteIn_cmdErr (s : State) (j : Nat) (b : Byte) : (s.hostWriteIn j b).cmdErr = s.cmdErr := rfl
@[simp] theorem hostWriteIn_errLog (s : State) (j : Nat) (b : Byte) : (s.hostWriteIn j b).errLog = s.errLog := rfl
@[simp] theorem hostWriteIn_capIn (s : State) (j : Nat) (b : Byte) : (s.hostWriteIn j b).capIn = s.capIn := rfl
@[simp] theorem hostWriteIn_capOut (s : State) (j : Nat) (b : Byte) : (s.hostWriteIn j b).capOut = s.capOut := rfl
@[simp] theorem hostWriteIn_inMem (s : State) (j : Nat) (b : Byte) : (s.hostWriteIn j b).inMem = s.inMem.write j b := rfl
@[simp] theorem hostWriteIn_outMem (s : State) (j : Nat) (b : Byte) : (s.hostWriteIn j b).outMem = s.outMem := rfl
@[simp] theorem hostWriteIn_inWritten (s : State) (j : Nat) (b : Byte) : (s.hostWriteIn j b).inWritten = insertIndex s.inWritten j := rfl
@[simp] theorem hostWriteIn_hostOps (s : State) (j : Nat) (b : Byte) : (s.hostWriteIn j b).hostOps = s.hostOps := rfl
@[simp] theorem hostWriteIn_hostSeen (s : State) (j : Nat) (b : Byte) : (s.hostWriteIn j b).hostSeen = s.hostSeen := rfl

/-! ### seen -/

@[simp] theorem seen_arg (s : State) (o : HostSeen) : (s.seen o).arg = s.arg := rfl
@[simp] theorem seen_result (s : State) (o : HostSeen) : (s.seen o).result = s.result := rfl
@[simp] theorem seen_eState (s : State) (o : HostSeen) : (s.seen o).eState = s.eState := rfl
@[simp] theorem seen_eErr (s : State) (o : HostSeen) : (s.seen o).eErr = s.eErr := rfl
@[simp] theorem seen_ePrev (s : State) (o : HostSeen) : (s.seen o).ePrev = s.ePrev := rfl
@[simp] theorem seen_wPos (s : State) (o : HostSeen) : (s.seen o).wPos = s.wPos := rfl
@[simp] theorem seen_outLen (s : State) (o : HostSeen) : (s.seen o).outLen = s.outLen := rfl
@[simp] theorem seen_dState (s : State) (o : HostSeen) : (s.seen o).dState = s.dState := rfl
@[simp] theorem seen_dErr (s : State) (o : HostSeen) : (s.seen o).dErr = s.dErr := rfl
@[simp] theorem seen_dPrev (s : State) (o : HostSeen) : (s.seen o).dPrev = s.dPrev := rfl
@[simp] theorem seen_rPos (s : State) (o : HostSeen) : (s.seen o).rPos = s.rPos := rfl
@[simp] theorem seen_dLimit (s : State) (o : HostSeen) : (s.seen o).dLimit = s.dLimit := rfl
@[simp] theorem seen_dN (s : State) (o : HostSeen) : (s.seen o).dN = s.dN := rfl
@[simp] theorem seen_dDone (s : State) (o : HostSeen) : (s.seen o).dDone = s.dDone := rfl
@[simp] theorem seen_inLen (s : State) (o : HostSeen) : (s.seen o).inLen = s.inLen := rfl
@[simp] theorem seen_cmdErr (s : State) (o : HostSeen) : (s.seen o).cmdErr = s.cmdErr := rfl
@[simp] theorem seen_errLog (s : State) (o : HostSeen) : (s.seen o).errLog = s.errLog := rfl
@[simp] theorem seen_capIn (s : State) (o : HostSeen) : (s.seen o).capIn = s.capIn := rfl
@[simp] theorem seen_capOut (s : State) (o : HostSeen) : (s.seen o).capOut = s.capOut := rfl
@[simp] theorem seen_inMem (s : State) (o : HostSeen) : (s.seen o).inMem = s.inMem := rfl
@[simp] theorem seen_outMem (s : State) (o : HostSeen) : (s.seen o).outMem = s.outMem := rfl
@[simp] theorem seen_inWritten (s : State) (o : HostSeen) : (s.seen o).inWritten = s.inWritten := rfl
@[simp] theorem seen_hostOps (s : State) (o : HostSeen) : (s.seen o).hostOps = s.hostOps := rfl
@[simp] theorem seen_hostSeen (s : State) (o : HostSeen) : (s.seen o).hostSeen = s.hostSeen ++ [o] := rfl

/-! ### withCommand -/

@[simp] theorem withCommand_arg (s : State) (w : Word) : (s.withCommand w).arg = s.arg := rfl
@[simp] theorem withCommand_result (s : State) (w : Word) : (s.withCommand w).result = s.result := rfl
@[simp] theorem withCommand_eState (s : State) (w : Word) : (s.withCommand w).eState = s.eState := rfl
@[simp] theorem withCommand_eErr (s : State) (w : Word) : (s.withCommand w).eErr = s.eErr := rfl
@[simp] theorem withCommand_ePrev (s : State) (w : Word) : (s.withCommand w).ePrev = s.ePrev := rfl
@[simp] theorem withCommand_wPos (s : State) (w : Word) : (s.withCommand w).wPos = s.wPos := rfl
@[simp] theorem withCommand_outLen (s : State) (w : Word) : (s.withCommand w).outLen = s.outLen := rfl
@[simp] theorem withCommand_dState (s : State) (w : Word) : (s.withCommand w).dState = s.dState := rfl
@[simp] theorem withCommand_dErr (s : State) (w : Word) : (s.withCommand w).dErr = s.dErr := rfl
@[simp] theorem withCommand_dPrev (s : State) (w : Word) : (s.withCommand w).dPrev = s.dPrev := rfl
@[simp] theorem withCommand_rPos (s : State) (w : Word) : (s.withCommand w).rPos = s.rPos := rfl
@[simp] theorem withCommand_dLimit (s : State) (w : Word) : (s.withCommand w).dLimit = s.dLimit := rfl
@[simp] theorem withCommand_dN (s : State) (w : Word) : (s.withCommand w).dN = s.dN := rfl
@[simp] theorem withCommand_dDone (s : State) (w : Word) : (s.withCommand w).dDone = s.dDone := rfl
@[simp] theorem withCommand_inLen (s : State) (w : Word) : (s.withCommand w).inLen = s.inLen := rfl
@[simp] theorem withCommand_cmdErr (s : State) (w : Word) : (s.withCommand w).cmdErr = s.cmdErr := rfl
@[simp] theorem withCommand_errLog (s : State) (w : Word) : (s.withCommand w).errLog = s.errLog := rfl
@[simp] theorem withCommand_capIn (s : State) (w : Word) : (s.withCommand w).capIn = s.capIn := rfl
@[simp] theorem withCommand_capOut (s : State) (w : Word) : (s.withCommand w).capOut = s.capOut := rfl
@[simp] theorem withCommand_inMem (s : State) (w : Word) : (s.withCommand w).inMem = s.inMem := rfl
@[simp] theorem withCommand_outMem (s : State) (w : Word) : (s.withCommand w).outMem = s.outMem := rfl
@[simp] theorem withCommand_inWritten (s : State) (w : Word) : (s.withCommand w).inWritten = s.inWritten := rfl
@[simp] theorem withCommand_hostOps (s : State) (w : Word) : (s.withCommand w).hostOps = .regWrite cmdOffset w :: s.hostOps := rfl
@[simp] theorem withCommand_hostSeen (s : State) (w : Word) : (s.withCommand w).hostSeen = s.hostSeen := rfl

/-! ### afterReset -/

@[simp] theorem afterReset_arg (s : State) : s.afterReset.arg = 0#32 := rfl
@[simp] theorem afterReset_result (s : State) : s.afterReset.result = 0#32 := rfl
@[simp] theorem afterReset_eState (s : State) : s.afterReset.eState = .idle := rfl
@[simp] theorem afterReset_eErr (s : State) : s.afterReset.eErr = .noError := rfl
@[simp] theorem afterReset_ePrev (s : State) : s.afterReset.ePrev = 0#32 := rfl
@[simp] theorem afterReset_wPos (s : State) : s.afterReset.wPos = 0#64 := rfl
@[simp] theorem afterReset_outLen (s : State) : s.afterReset.outLen = 0#32 := rfl
@[simp] theorem afterReset_dState (s : State) : s.afterReset.dState = .idle := rfl
@[simp] theorem afterReset_dErr (s : State) : s.afterReset.dErr = .noError := rfl
@[simp] theorem afterReset_dPrev (s : State) : s.afterReset.dPrev = 0#32 := rfl
@[simp] theorem afterReset_rPos (s : State) : s.afterReset.rPos = 0#64 := rfl
@[simp] theorem afterReset_dLimit (s : State) : s.afterReset.dLimit = 0#64 := rfl
@[simp] theorem afterReset_dN (s : State) : s.afterReset.dN = 0#32 := rfl
@[simp] theorem afterReset_dDone (s : State) : s.afterReset.dDone = 0#32 := rfl
@[simp] theorem afterReset_inLen (s : State) : s.afterReset.inLen = 0#32 := rfl
@[simp] theorem afterReset_cmdErr (s : State) : s.afterReset.cmdErr = .noError := rfl
@[simp] theorem afterReset_errLog (s : State) : s.afterReset.errLog = 0#32 := rfl
@[simp] theorem afterReset_capIn (s : State) : s.afterReset.capIn = s.capIn := rfl
@[simp] theorem afterReset_capOut (s : State) : s.afterReset.capOut = s.capOut := rfl
@[simp] theorem afterReset_inMem (s : State) : s.afterReset.inMem = s.inMem := rfl
@[simp] theorem afterReset_outMem (s : State) : s.afterReset.outMem = s.outMem := rfl
@[simp] theorem afterReset_inWritten (s : State) : s.afterReset.inWritten = [] := rfl
@[simp] theorem afterReset_hostOps (s : State) : s.afterReset.hostOps = s.hostOps := rfl
@[simp] theorem afterReset_hostSeen (s : State) : s.afterReset.hostSeen = s.hostSeen := rfl

end Sys2Proof.Machine
end

