-- ==== Sys2Proof/Laws/Memory.lean ====
section
/-!
SUPPORT. The laws of the byte memories and of the record of written indices: what a read gives after a write, and that
every operation keeps the canonical form.
-/

namespace Sys2Proof.Machine

/-- A byte reads as what was last written to it. -/
@[simp] theorem Memory.read_write_same (m : Memory) (j : Nat) (b : Byte) : (m.write j b).read j = some b := by
  induction m with
  | nil => simp [Memory.write, Memory.read]
  | cons c m ih =>
    simp only [Memory.write]
    split
    · simp [Memory.read]
    · split
      · simp [Memory.read]
      · rename_i h1 h2
        simp [Memory.read, Ne.symm h2, ih]

/-- A write leaves every other byte alone. -/
theorem Memory.read_write_other (m : Memory) (b : Byte) {i j : Nat} (h : i ≠ j) : (m.write j b).read i = m.read i := by
  induction m with
  | nil => simp [Memory.write, Memory.read, h.symm]
  | cons c m ih =>
    simp only [Memory.write]
    split
    · simp [Memory.read, h.symm]
    · split
      · rename_i h1 h2
        simp [Memory.read, h.symm, ← h2]
      · simp [Memory.read, ih]

/-- A read after a write, in one equation. -/
theorem Memory.read_write (m : Memory) (i j : Nat) (b : Byte) :
    (m.write j b).read i = if i = j then some b else m.read i := by
  split
  · next h => subst h; simp
  · next h => exact Memory.read_write_other m b h

/-- The entries of a written memory are the new one and old ones. -/
theorem Memory.mem_write {m : Memory} {j : Nat} {b : Byte} {c : Host.Cell} (h : c ∈ m.write j b) :
    c = (j, b) ∨ c ∈ m := by
  induction m with
  | nil => simpa [Memory.write] using h
  | cons d m ih =>
    simp only [Memory.write] at h
    split at h
    · simpa using h
    · split at h
      · simp only [List.mem_cons] at h ⊢
        tauto
      · simp only [List.mem_cons] at h ⊢
        rcases h with h | h
        · exact .inr (.inl h)
        · rcases ih h with h | h
          · exact .inl h
          · exact .inr (.inr h)

/-- A write keeps the canonical form. -/
theorem Memory.write_wf {m : Memory} (h : m.wf) (j : Nat) (b : Byte) : (m.write j b).wf := by
  induction m with
  | nil => simp [Memory.write, Memory.wf]
  | cons c m ih =>
    obtain ⟨hc, hm⟩ := List.pairwise_cons.1 h
    simp only [Memory.write]
    split
    · next hlt =>
      refine List.pairwise_cons.2 ⟨fun d hd => ?_, h⟩
      rcases List.mem_cons.1 hd with rfl | hd
      · exact hlt
      · exact hlt.trans (hc d hd)
    · split
      · next heq => exact List.pairwise_cons.2 ⟨fun d hd => heq ▸ hc d hd, hm⟩
      · next hnlt hne =>
        refine List.pairwise_cons.2 ⟨fun d hd => ?_, ih hm⟩
        rcases Memory.mem_write hd with rfl | hd
        · show c.1 < j
          omega
        · exact hc d hd

/-- The memory of reset, which lists nothing, is in canonical form. -/
theorem Memory.nil_wf : Memory.wf [] := List.Pairwise.nil

/-- An OUT byte after a write. -/
theorem outByteOf_write (m : Memory) (i j : Nat) (b : Byte) :
    outByteOf (m.write j b) i = if i = j then b else outByteOf m i := by
  unfold outByteOf
  rw [Memory.read_write]
  split <;> rfl

/-- The members of the record after a host write. -/
@[simp] theorem mem_insertIndex {ks : List Nat} {i j : Nat} : i ∈ insertIndex ks j ↔ i = j ∨ i ∈ ks := by
  induction ks with
  | nil => simp [insertIndex]
  | cons k ks ih =>
    simp only [insertIndex]
    split
    · simp
    · split
      · next h => subst h; simp
      · simp only [List.mem_cons, ih]
        tauto

/-- The record stays strictly rising. -/
theorem insertIndex_pairwise {ks : List Nat} (h : ks.Pairwise (· < ·)) (j : Nat) :
    (insertIndex ks j).Pairwise (· < ·) := by
  induction ks with
  | nil => simp [insertIndex]
  | cons k ks ih =>
    obtain ⟨hk, hks⟩ := List.pairwise_cons.1 h
    simp only [insertIndex]
    split
    · next hlt =>
      refine List.pairwise_cons.2 ⟨fun d hd => ?_, h⟩
      rcases List.mem_cons.1 hd with rfl | hd
      · exact hlt
      · exact hlt.trans (hk d hd)
    · split
      · exact h
      · next hnlt hne =>
        refine List.pairwise_cons.2 ⟨fun d hd => ?_, ih hks⟩
        rcases mem_insertIndex.1 hd with rfl | hd
        · omega
        · exact hk d hd

/-- An IN byte after a host write. -/
theorem hostWriteIn_inByte (s : State) (i j : Nat) (b : Byte) :
    (s.hostWriteIn j b).inByte i = if i = j then b else s.inByte i := by
  unfold State.inByte State.hostWriteIn
  simp only [Memory.read_write]
  split <;> rfl

end Sys2Proof.Machine
end

