-- ==== Sys2Proof/Laws/Writer.lean ====
section
/-!
SUPPORT. What the bit writer can do (45_bit_writer.md): one lemma for one bit, and one for a run of bits, from which the
laws of a group and of a codeword follow.
-/

namespace Sys2Proof.Machine

/-- A bit of the byte after the read-modify-write of one bit. -/
theorem setBitOf_getLsbD (byte : Byte) (b : Bool) {i k : Nat} (hi : i < 8) (hk : k < 8) :
    (setBitOf byte i b).getLsbD k = if k = i then b else byte.getLsbD k := by
  unfold setBitOf
  interval_cases i <;> interval_cases k <;> cases b <;> simp

/-- The cursor after one bit. -/
theorem bwWriteBit_pos (w : Writer) (b : Bool) (h : w.pos.toNat + 1 < 2 ^ 64) :
    (bwWriteBit w b).pos.toNat = w.pos.toNat + 1 := by
  simp only [bwWriteBit, BitVec.toNat_ofNat, Nat.mod_eq_of_lt h]

/-- The bytes of OUT after one bit: only the byte of the cursor changes. -/
theorem bwWriteBit_byte (w : Writer) (b : Bool) (j : Nat) :
    outByteOf (bwWriteBit w b).out j =
      if j = w.pos.toNat / 8 then
        setBitOf (if w.pos.toNat % 8 = 0 then 0#8 else outByteOf w.out (w.pos.toNat / 8)) (w.pos.toNat % 8) b
      else outByteOf w.out j := by
  simp only [bwWriteBit, outByteOf_write]
  split
  · split <;> simp [outByteOf_write]
  · split <;> simp [outByteOf_write, *]

/-- The stream of OUT after one bit: the bit at the cursor is the bit written, a new byte starts at zero, every other bit
is as before. -/
theorem bwWriteBit_streamBit (w : Writer) (b : Bool) (q : Nat) :
    streamBit (outByteOf (bwWriteBit w b).out) q =
      if q = w.pos.toNat then b
      else if q / 8 = w.pos.toNat / 8 ∧ w.pos.toNat % 8 = 0 then false
      else streamBit (outByteOf w.out) q := by
  unfold streamBit
  rw [bwWriteBit_byte]
  generalize w.pos.toNat = p
  by_cases hq : q / 8 = p / 8
  · simp only [hq, if_true, true_and]
    rw [setBitOf_getLsbD _ _ (Nat.mod_lt _ (by omega)) (Nat.mod_lt _ (by omega))]
    have hm : q % 8 = p % 8 ↔ q = p := by omega
    rw [if_congr hm rfl rfl]
    split_ifs <;> first | rfl | simp
  · rw [if_neg hq, if_neg (by omega), if_neg (by tauto)]

/-- A byte that one bit does not touch. -/
theorem bwWriteBit_read (w : Writer) (b : Bool) {j : Nat} (h : j ≠ w.pos.toNat / 8) :
    (bwWriteBit w b).out.read j = w.out.read j := by
  simp only [bwWriteBit]
  rw [Memory.read_write_other _ _ h]
  split
  · rw [Memory.read_write_other _ _ h]
  · rfl

/-- One bit keeps the canonical form of OUT. -/
theorem bwWriteBit_wf {w : Writer} (h : w.out.wf) (b : Bool) : (bwWriteBit w b).out.wf := by
  simp only [bwWriteBit]
  split
  · exact Memory.write_wf (Memory.write_wf h _ _) _ _
  · exact Memory.write_wf h _ _

/-- An entry of OUT after one bit is an old one or stands at the byte of the cursor. -/
theorem bwWriteBit_mem {w : Writer} {b : Bool} {c : Host.Cell} (h : c ∈ (bwWriteBit w b).out) :
    c.1 = w.pos.toNat / 8 ∨ c ∈ w.out := by
  simp only [bwWriteBit] at h
  rcases Memory.mem_write h with rfl | h
  · exact .inl rfl
  · split at h
    · rcases Memory.mem_write h with rfl | h
      · exact .inl rfl
      · exact .inr h
    · exact .inr h

/-- A run of bits, first one first. -/
def bwWriteBits (w : Writer) (bs : List Bool) : Writer := bs.foldl bwWriteBit w

/-- The bits of a group in stream order (30_encoding.md R64). -/
def groupBits (g : Group) : List Bool := [0, 1, 2, 3, 4].map fun j => g.getLsbD j

@[simp] theorem groupBits_length (g : Group) : (groupBits g).length = 5 := rfl

/-- The groups of a codeword are written as the run of their bits. -/
theorem bwWriteGroups_eq (w : Writer) (gs : List Group) : bwWriteGroups w gs = bwWriteBits w (gs.flatMap groupBits) := by
  induction gs generalizing w with
  | nil => rfl
  | cons g gs ih =>
    rw [List.flatMap_cons, bwWriteBits, List.foldl_append]
    exact ih (bwWriteGroup w g)

/-- Everything a run of bits does: the cursor, the stream, the bytes it leaves alone, the form of OUT. -/
structure WroteBits (w w' : Writer) (bs : List Bool) : Prop where
  pos : w'.pos.toNat = w.pos.toNat + bs.length
  bits : ∀ i (h : i < bs.length), streamBit (outByteOf w'.out) (w.pos.toNat + i) = bs[i]'h
  below : ∀ q < w.pos.toNat, streamBit (outByteOf w'.out) q = streamBit (outByteOf w.out) q
  above : ∀ q, w.pos.toNat + bs.length ≤ q → streamBit (outByteOf w'.out) q =
    if w.pos.toNat ≤ 8 * (q / 8) ∧ 8 * (q / 8) < w.pos.toNat + bs.length then false else streamBit (outByteOf w.out) q
  kept : ∀ j, j < w.pos.toNat / 8 ∨ w.pos.toNat + bs.length ≤ 8 * j → w'.out.read j = w.out.read j
  wf : w.out.wf → w'.out.wf
  mem : ∀ c ∈ w'.out, c ∈ w.out ∨ 8 * c.1 < w.pos.toNat + bs.length

/-- What a run of bits does. -/
theorem bwWriteBits_spec (bs : List Bool) (w : Writer) (h : w.pos.toNat + bs.length < 2 ^ 64) :
    WroteBits w (bwWriteBits w bs) bs := by
  induction bs generalizing w with
  | nil =>
    refine ⟨rfl, by simp, fun q _ => rfl, fun q _ => ?_, fun j _ => rfl, id, fun c hc => .inl hc⟩
    rw [if_neg]
    · rfl
    · simp only [List.length_nil]; omega
  | cons b bs ih =>
    have hlen : (b :: bs).length = bs.length + 1 := rfl
    have hp := bwWriteBit_pos w b (by omega)
    have H := ih (bwWriteBit w b) (by rw [hp]; omega)
    have hbit := bwWriteBit_streamBit w b
    rw [show bwWriteBits w (b :: bs) = bwWriteBits (bwWriteBit w b) bs from rfl]
    generalize bwWriteBits (bwWriteBit w b) bs = w' at H
    obtain ⟨Hpos, Hbits, Hbelow, Habove, Hkept, Hwf, Hmem⟩ := H
    rw [hp] at Hpos Hbits Hbelow Habove Hkept Hmem
    refine ⟨by omega, ?_, ?_, ?_, ?_, fun hw => Hwf (bwWriteBit_wf hw b), ?_⟩
    · intro i hi
      cases i with
      | zero => rw [Hbelow _ (by omega), hbit]; simp
      | succ i =>
        have := Hbits i (by omega)
        rw [show w.pos.toNat + (i + 1) = w.pos.toNat + 1 + i by omega, this]
        rfl
    · intro q hq
      rw [Hbelow _ (by omega), hbit, if_neg (by omega), if_neg (by omega)]
    · intro q hq
      rw [Habove _ (by omega), hbit, if_neg (show ¬q = w.pos.toNat by omega)]
      split_ifs <;> first | rfl | omega
    · intro j hj
      rw [Hkept j (by omega), bwWriteBit_read _ _ (by omega)]
    · intro c hc
      rcases Hmem c hc with hc | hc
      · rcases bwWriteBit_mem hc with hc | hc
        · exact .inr (by omega)
        · exact .inl hc
      · exact .inr (by omega)

/-- The number of bits of a list of groups. -/
@[simp] theorem flatMap_groupBits_length (gs : List Group) : (gs.flatMap groupBits).length = 5 * gs.length := by
  induction gs with
  | nil => rfl
  | cons g gs ih => rw [List.flatMap_cons, List.length_append, ih, groupBits_length, List.length_cons]; omega

/-- Bit j of group i in the run of the groups' bits. -/
theorem flatMap_groupBits_getElem (gs : List Group) {i j : Nat} (hi : i < gs.length) (hj : j < 5)
    (h : 5 * i + j < (gs.flatMap groupBits).length) :
    (gs.flatMap groupBits)[5 * i + j] = (gs[i]).getLsbD j := by
  induction gs generalizing i with
  | nil => simp at hi
  | cons g gs ih =>
    simp only [List.flatMap_cons]
    cases i with
    | zero =>
      rw [List.getElem_append_left (by simp; omega)]
      interval_cases j <;> rfl
    | succ i =>
      rw [List.getElem_append_right (by simp; omega)]
      have hi' : i < gs.length := by simpa using hi
      have := ih hi' (by rw [flatMap_groupBits_length]; omega)
      simp only [groupBits_length, List.getElem_cons_succ]
      rw [← this]
      congr 1
      omega

end Sys2Proof.Machine
end

