-- ==== Sys2Proof/Laws/Exec.lean ====
section
/-!
SUPPORT. What each command can do (47_commands.md): for ENC_SAMPLE and DEC_SAMPLE every way the command can end, in the
terms of the units, so that a claim about a command splits into these cases once.
-/

namespace Sys2Proof.Machine

/-- The zigzag value ENC_SAMPLE encodes (R110 steps 1 and 2). -/
def sampleZigzag (s : State) : DWord := zzToUnsigned (predResidual s.arg s.ePrev)

/-- The writer after the codeword of ENC_SAMPLE (R110 step 5). -/
def sampleWriter (s : State) : Writer :=
  bwWriteBits ⟨s.wPos, s.outMem⟩ ((ngeGroups (sampleZigzag s)).flatMap groupBits)

/-- How ENC_SAMPLE ends (R110, R122). -/
inductive EncSampleEnd (s : State) : Prop where
  /-- A FAILED session ignores the command (R121). -/
  | ignored (h : s.eState = .failed) (heq : execEncSample s = .next s.beginCommand)
  /-- IDLE or CLOSED. -/
  | sequence (h : s.eState = .idle ∨ s.eState = .closed)
      (heq : execEncSample s = .next (s.beginCommand.raise .enc .sequenceError))
  /-- The range check, which R79 says never raises. -/
  | range (h : s.eState = .opened) (hu : 2 ^ 34 ≤ (sampleZigzag s).toNat)
      (heq : execEncSample s = .next (s.beginCommand.raise .enc .integerOverflow))
  /-- The codeword does not fit in OUT. -/
  | overflow (h : s.eState = .opened)
      (hc : s.capOut.toNat < ceilDiv (s.wPos.toNat + 5 * (ngeGroups (sampleZigzag s)).length) 8)
      (heq : execEncSample s = .next (s.beginCommand.raise .enc .outputOverflow))
  /-- The codeword is written. -/
  | wrote (h : s.eState = .opened) (hu : (sampleZigzag s).toNat < 2 ^ 34)
      (hc : ceilDiv (s.wPos.toNat + 5 * (ngeGroups (sampleZigzag s)).length) 8 ≤ s.capOut.toNat)
      (heq : execEncSample s = .next { s.beginCommand with
        wPos := (sampleWriter s).pos, outMem := (sampleWriter s).out, ePrev := s.arg })

theorem execEncSample_cases (s : State) : EncSampleEnd s := by
  cases h : s.eState with
  | failed => exact .ignored h (by simp [execEncSample, h])
  | idle => exact .sequence (.inl h) (by simp [execEncSample, h])
  | closed => exact .sequence (.inr h) (by simp [execEncSample, h])
  | opened =>
    have run : execEncSample s = ((zzRangeCheck (sampleZigzag s)).bind fun _ =>
        (bwCapacity s (Config.groupW * (ngeGroups (sampleZigzag s)).length)).bind fun _ =>
          .ok (bwWriteGroups ⟨s.wPos, s.outMem⟩ (ngeGroups (sampleZigzag s)))).finish s.beginCommand .enc fun w =>
            { s.beginCommand with wPos := w.pos, outMem := w.out, ePrev := s.arg } := by
      simp only [execEncSample, beginCommand_eState, h]
      rfl
    by_cases hu : 2 ^ 34 ≤ (sampleZigzag s).toNat
    · have e : zzRangeCheck (sampleZigzag s) = .raised .integerOverflow := if_pos hu
      exact .range h hu (by rw [run, e]; rfl)
    · have e : zzRangeCheck (sampleZigzag s) = .ok () := if_neg hu
      by_cases hc : s.capOut.toNat < ceilDiv (s.wPos.toNat + 5 * (ngeGroups (sampleZigzag s)).length) 8
      · have e' : bwCapacity s (Config.groupW * (ngeGroups (sampleZigzag s)).length) = .raised .outputOverflow := if_pos hc
        exact .overflow h hc (by rw [run, e, Res.bind, e']; rfl)
      · have e' : bwCapacity s (Config.groupW * (ngeGroups (sampleZigzag s)).length) = .ok () := if_neg hc
        exact .wrote h (by omega) (by omega) (by rw [run, e, Res.bind, e', bwWriteGroups_eq]; rfl)

/-- Where the codeword fits in OUT, no cursor of its writing reaches 2^64 (R25). -/
theorem room_of_capacity {p n : Nat} {cap : Word} (h : ceilDiv (p + n) 8 ≤ cap.toNat) :
    p + n ≤ 8 * cap.toNat ∧ p + n < 2 ^ 64 := by
  have := cap.isLt
  unfold ceilDiv at h
  omega

/-- What the writing of ENC_SAMPLE does to the cursor and to OUT. -/
theorem sampleWriter_spec (s : State)
    (hc : ceilDiv (s.wPos.toNat + 5 * (ngeGroups (sampleZigzag s)).length) 8 ≤ s.capOut.toNat) :
    WroteBits ⟨s.wPos, s.outMem⟩ (sampleWriter s) ((ngeGroups (sampleZigzag s)).flatMap groupBits) :=
  bwWriteBits_spec _ _ (by rw [flatMap_groupBits_length]; exact (room_of_capacity hc).2)

/-- ENC_FINISH in each state (R111). -/
theorem execEncFinish_cases (s : State) :
    (s.eState = .failed ∧ execEncFinish s = .next s.beginCommand) ∨
    ((s.eState = .idle ∨ s.eState = .closed) ∧
      execEncFinish s = .next (s.beginCommand.raise .enc .sequenceError)) ∨
    (s.eState = .opened ∧ execEncFinish s = .next { s.beginCommand.bwFinish with eState := .closed }) := by
  cases h : s.eState <;> simp [execEncFinish, h]

/-- DEC_INIT by its count (R112, R122). -/
theorem execDecInit_cases (s : State) :
    (s.arg.toInt < 0 ∧ execDecInit s = .next (s.beginCommand.decInitWrites.raise .dec .invalidSampleCount)) ∨
    (s.arg.toInt = 0 ∧ execDecInit s = .next { s.beginCommand.decInitWrites with dState := .complete }) ∨
    (0 < s.arg.toInt ∧ s.capIn.toNat < s.inLen.toNat ∧
      execDecInit s = .next (s.beginCommand.decInitWrites.raise .dec .invalidLength)) ∨
    (0 < s.arg.toInt ∧ s.inLen.toNat ≤ s.capIn.toNat ∧
      execDecInit s = .next { s.beginCommand.decInitWrites.brInit s.inLen with dState := .active }) := by
  by_cases h1 : s.arg.toInt < 0
  · exact .inl ⟨h1, by simp [execDecInit, State.countOperand, h1]⟩
  · by_cases h2 : s.arg.toInt = 0
    · exact .inr (.inl ⟨h2, by simp [execDecInit, State.countOperand, h2]⟩)
    · by_cases h3 : s.capIn.toNat < s.inLen.toNat
      · exact .inr (.inr (.inl ⟨by omega, h3, by simp [execDecInit, State.countOperand, h1, h2, h3]⟩))
      · exact .inr (.inr (.inr ⟨by omega, by omega, by simp [execDecInit, State.countOperand, h1, h2, h3]⟩))

/-- What NGD_DECODE does depends on nothing `beginCommand` writes. -/
@[simp] theorem ngdDecode_beginCommand (s : State) : ngdDecode s.beginCommand = ngdDecode s := by
  have bit : ∀ k, brReadBit s.beginCommand k = brReadBit s k := fun k => rfl
  have gather : ∀ js pos g, brGather s.beginCommand pos js g = brGather s pos js g := by
    intro js
    induction js with
    | nil => intros; rfl
    | cons j js ih => intro pos g; simp only [brGather, bit, ih]
  have loop : ∀ n i pos u, ngdLoop s.beginCommand n i pos u = ngdLoop s n i pos u := by
    intro n
    induction n with
    | zero => intros; rfl
    | succ n ih => intro i pos u; simp only [ngdLoop, brReadGroup, gather, beginCommand_dLimit, ih]
  exact loop _ _ _ _

/-- The sum PRED_RECONSTRUCT checks (R75), for the zigzag value `u`. -/
def reconstructed (s : State) (u : DWord) : Int := s.dPrev.toInt + (zzToSigned u).toInt

/-- How DEC_SAMPLE ends (R113, R122), by how NGD_DECODE ends. -/
inductive DecSampleEnd (s : State) : Prop where
  /-- A FAILED session ignores the command (R121). -/
  | ignored (h : s.dState = .failed) (heq : execDecSample s = .next s.beginCommand)
  /-- IDLE or COMPLETE. -/
  | sequence (h : s.dState = .idle ∨ s.dState = .complete)
      (heq : execDecSample s = .next (s.beginCommand.raise .dec .sequenceError))
  /-- NGD_DECODE raises. -/
  | decodeError (h : s.dState = .active) (c : ErrCode) (hd : ngdDecode s = .raised c)
      (heq : execDecSample s = .next (s.beginCommand.raise .dec c))
  /-- A byte of IN has not been written since reset. -/
  | unwritten (h : s.dState = .active) (f : Fault) (hd : ngdDecode s = .faulted f) (heq : execDecSample s = .fault f)
  /-- The zigzag value or the sample is out of range. -/
  | range (h : s.dState = .active) (u : DWord) (pos : Nat) (hd : ngdDecode s = .ok (u, pos))
      (hr : 2 ^ 34 ≤ u.toNat ∨ reconstructed s u < -2 ^ 31 ∨ 2 ^ 31 - 1 < reconstructed s u)
      (heq : execDecSample s = .next (s.beginCommand.raise .dec .integerOverflow))
  /-- The sample is committed. -/
  | sample (h : s.dState = .active) (u : DWord) (pos : Nat) (hd : ngdDecode s = .ok (u, pos)) (hu : u.toNat < 2 ^ 34)
      (hr : -2 ^ 31 ≤ reconstructed s u ∧ reconstructed s u ≤ 2 ^ 31 - 1)
      (heq : execDecSample s = .next (s.beginCommand.commitSample pos (BitVec.ofInt 32 (reconstructed s u))))

theorem execDecSample_cases (s : State) : DecSampleEnd s := by
  cases h : s.dState with
  | failed => exact .ignored h (by simp [execDecSample, h])
  | idle => exact .sequence (.inl h) (by simp [execDecSample, h])
  | complete => exact .sequence (.inr h) (by simp [execDecSample, h])
  | active =>
    cases hd : ngdDecode s with
    | raised c => exact .decodeError h c hd (by simp [execDecSample, h, decodeSample, hd, Res.bind, Res.finish])
    | faulted f => exact .unwritten h f hd (by simp [execDecSample, h, decodeSample, hd, Res.bind, Res.finish])
    | ok v =>
      obtain ⟨u, pos⟩ := v
      have e : s.dPrev.toInt + (zzToSigned u).toInt = reconstructed s u := rfl
      by_cases hu : u.toNat ≥ 2 ^ Config.zzLimitBits
      · refine .range h u pos hd (.inl hu) ?_
        simp only [execDecSample, beginCommand_dState, h, decodeSample, ngdDecode_beginCommand, hd, zzRangeCheck,
          if_pos hu, Res.bind, Res.finish]
      · by_cases hr : reconstructed s u < -2 ^ 31 ∨ reconstructed s u > 2 ^ 31 - 1
        · refine .range h u pos hd (.inr hr) ?_
          simp only [execDecSample, beginCommand_dState, h, decodeSample, ngdDecode_beginCommand, hd, zzRangeCheck,
            if_neg hu, Res.bind, Res.finish, predReconstruct, beginCommand_dPrev, e, if_pos hr]
        · refine .sample h u pos hd (by simpa [Config.zzLimitBits] using hu) (by omega) ?_
          simp only [execDecSample, beginCommand_dState, h, decodeSample, ngdDecode_beginCommand, hd, zzRangeCheck,
            if_neg hu, Res.bind, Res.finish, predReconstruct, beginCommand_dPrev, e, if_neg hr]

end Sys2Proof.Machine
end

