-- ==== Sys2Proof/Laws/PerInstr.lean ====
section
/-!
SUPPORT. A statement about each command as syntax: its word is legal and decodes to it, in words and in byte lanes.
-/

namespace Sys2Proof.Laws.CommandWord

/-- The word of a command is a legal word (30_encoding.md R56 to R58) that decodes to it, also from its byte lanes. -/
def Statement (i : Instr) : Prop :=
  i.wellFormed = true ∧ wordWellFormed (encode i) = true ∧ decode (encode i) = .ok i ∧
    decodeTableWord 32 (encode i).toNat = some i

theorem encInit : Statement .encInit := ⟨rfl, rfl, rfl, rfl⟩

theorem encSample : Statement .encSample := ⟨rfl, rfl, rfl, rfl⟩

theorem encFinish : Statement .encFinish := ⟨rfl, rfl, rfl, rfl⟩

theorem decInit : Statement .decInit := ⟨rfl, rfl, rfl, rfl⟩

theorem decSample : Statement .decSample := ⟨rfl, rfl, rfl, rfl⟩

end Sys2Proof.Laws.CommandWord
end

