-- ==== Sys2Proof/Laws/Step.lean ====
section
/-!
SUPPORT. What a step can do: every way it can give a next state, by the host's next access.
-/

namespace Sys2Proof.Machine

/-- How a step gives a next state: by the host's next access `op`, performed on the state `s` without it. -/
inductive StepNext (s t : State) : Prop where
  /-- No access is pending. -/
  | idle (h : s.hostOps = []) (heq : t = s)
  /-- A legal command is run. -/
  | command (w : Word) (ops : List HostOp) (i : Instr) (h : s.hostOps = .regWrite cmdOffset w :: ops)
      (hd : decode w = .ok i) (heq : exec i { s with hostOps := ops } = .next t)
  /-- An illegal command word is recorded. -/
  | illegal (w : Word) (ops : List HostOp) (e : DecodeError) (h : s.hostOps = .regWrite cmdOffset w :: ops)
      (hd : decode w = .error e) (heq : t = State.raiseIllegalCommand { s with hostOps := ops })
  /-- Another register is written. -/
  | write (off : BitVec 8) (v : Word) (ops : List HostOp) (h : s.hostOps = .regWrite off v :: ops)
      (hoff : off ≠ cmdOffset) (heq : t = State.writeOffset { s with hostOps := ops } off v)
  /-- A register or a byte is read. -/
  | read (op : HostOp) (ops : List HostOp) (o : HostSeen) (h : s.hostOps = op :: ops)
      (heq : t = State.seen { s with hostOps := ops } o)
  /-- A byte of IN is written. -/
  | input (j : Nat) (b : Byte) (ops : List HostOp) (h : s.hostOps = .inWrite j b :: ops) (hj : j < s.capIn.toNat)
      (heq : t = State.hostWriteIn { s with hostOps := ops } j b)
  /-- Reset. -/
  | reset (ops : List HostOp) (h : s.hostOps = .reset :: ops) (heq : t = State.afterReset { s with hostOps := ops })

/-- Every next state of a step comes from one of these. -/
theorem step_cases {s t : State} (h : step s = .next t) : StepNext s t := by
  unfold step hostStep at h
  cases hops : s.hostOps with
  | nil => rw [hops] at h; simp only [Host.Outcome.next.injEq] at h; exact .idle hops h.symm
  | cons op ops =>
    rw [hops] at h
    cases op with
    | regWrite off v =>
      simp only [perform] at h
      split at h
      · simp at h
      · split at h
        · next hoff =>
          subst hoff
          simp only [issue] at h
          cases hd : decode v with
          | error e =>
            rw [hd] at h
            simp only [Host.Outcome.next.injEq] at h
            exact .illegal v ops e hops hd h.symm
          | ok i => rw [hd] at h; exact .command v ops i hops hd h
        · next hoff => simp only [Host.Outcome.next.injEq] at h; exact .write off v ops hops hoff h.symm
    | regRead off =>
      simp only [perform] at h
      split at h
      · simp at h
      · simp only [Host.Outcome.next.injEq] at h; exact .read _ ops _ hops h.symm
    | inWrite j b =>
      simp only [perform] at h
      split at h
      · next hj => simp only [Host.Outcome.next.injEq] at h; exact .input j b ops hops hj h.symm
      · simp at h
    | inRead j =>
      simp only [perform] at h
      split at h
      · simp only [Host.Outcome.next.injEq] at h; exact .read _ ops _ hops h.symm
      · simp at h
    | outRead j =>
      simp only [perform] at h
      split at h
      · simp only [Host.Outcome.next.injEq] at h; exact .read _ ops _ hops h.symm
      · simp at h
    | outWrite j b => simp [perform] at h
    | reset => simp only [perform, Host.Outcome.next.injEq] at h; exact .reset ops hops h.symm

/-- A host register write changes ARG or IN_LEN or nothing (10_state.md R18). -/
theorem writeOffset_eq (s : State) (off : BitVec 8) (v : Word) :
    s.writeOffset off v = { s with
      arg := if off = argOffset then v else s.arg
      inLen := if off = inLenOffset then v else s.inLen } := by
  unfold State.writeOffset
  split
  · next h => subst h; rfl
  · split <;> rfl

end Sys2Proof.Machine
end

