-- ==== Sys2Proof/Machine/Bus.lean ====
section
/-!
DEFINITION. The platform's placement of the block on a host bus (00_scope.md R9, 20_memory.md R44, R47): the open
parameters REG_BASE, IN_ADDR and OUT_ADDR as arguments, and which bus accesses are accesses of the block.
-/

namespace Sys2Proof.Machine

/-- The platform parameters (R9). -/
structure BusMap where
  /-- REG_BASE: host bus address of register offset 0x00. -/
  regBase : Nat
  /-- IN_ADDR: host bus address of IN[0]. -/
  inAddr : Nat
  /-- OUT_ADDR: host bus address of OUT[0]. -/
  outAddr : Nat
deriving DecidableEq, Repr

/-- REG_BASE is 256-byte aligned (R9). -/
def BusMap.aligned (m : BusMap) : Bool := m.regBase % 256 == 0

/-- An access on the host bus: an address, a width in bytes, and for a write the value. -/
inductive BusAccess where
  | read (addr width : Nat)
  | write (addr width value : Nat)
deriving DecidableEq, Repr

/-- Whether `addr` lies in the `size` bytes from `base`. -/
def inWindow (base size addr : Nat) : Bool := decide (base ≤ addr ∧ addr < base + size)

/-- The access of the block a bus access is: a 4-byte access in the register window (lane 0 is bits 7:0, so the value is
the word, R44), or a byte access in IN or OUT. None where the address is not the block's or the width is not the one the
spec admits (R19, R46). Where a platform lets windows overlap, the register window goes first, then IN (entry 9). -/
def BusMap.toHostOp (m : BusMap) (s : State) : BusAccess → Option HostOp
  | .read addr width =>
    if inWindow m.regBase 256 addr then
      if width = 4 then some (.regRead (BitVec.ofNat 8 (addr - m.regBase))) else none
    else if inWindow m.inAddr s.capIn.toNat addr then
      if width = 1 then some (.inRead (addr - m.inAddr)) else none
    else if inWindow m.outAddr s.capOut.toNat addr then
      if width = 1 then some (.outRead (addr - m.outAddr)) else none
    else none
  | .write addr width value =>
    if inWindow m.regBase 256 addr then
      if width = 4 then some (.regWrite (BitVec.ofNat 8 (addr - m.regBase)) (BitVec.ofNat 32 value)) else none
    else if inWindow m.inAddr s.capIn.toNat addr then
      if width = 1 then some (.inWrite (addr - m.inAddr) (BitVec.ofNat 8 value)) else none
    else if inWindow m.outAddr s.capOut.toNat addr then
      if width = 1 then some (.outWrite (addr - m.outAddr) (BitVec.ofNat 8 value)) else none
    else none

end Sys2Proof.Machine
end

