-- ==== Sys2Proof/Machine/HostProgram.lean ====
section
/-!
DEFINITION. The host program syntax of the spec (30_encoding.md R61) and its pseudo-instructions (R62), as lists of host
accesses in the order the host performs them.
-/

namespace Sys2Proof.Machine

/-- A command mnemonic: `WR CMD, <its word>` (R61). -/
def commandOp (i : Instr) : HostOp := .regWrite cmdOffset (encode i)

/-- `ENC_SAMPLE s` (R62). -/
def encSampleOps (sample : Word) : List HostOp := [.regWrite argOffset sample, commandOp .encSample]

/-- `DEC_INIT n` (R62). -/
def decInitOps (n : Word) : List HostOp := [.regWrite argOffset n, commandOp .decInit]

/-- `COMPRESS [s0, ...]` (R62). The expansion reads OUT up to the OUT_LEN it has just read, so the number of bytes read
is an argument here: the host knows it only when it gets there. -/
def compressOps (samples : List Word) (outLen : Nat) : List HostOp :=
  [commandOp .encInit] ++ samples.flatMap encSampleOps ++
    [commandOp .encFinish, .regRead statusOffset, .regRead outLenOffset] ++ (List.range outLen).map HostOp.outRead

/-- `LOAD_IN [b0, ...]` (R62). DESIGN CHOICE (entry 14), safe: the length is written modulo 2^32; a list that long is refused
at its first byte outside IN. -/
def loadInOps (bytes : List Byte) : List HostOp :=
  bytes.zipIdx.map (fun bj => HostOp.inWrite bj.2 bj.1) ++ [.regWrite inLenOffset (BitVec.ofNat 32 bytes.length)]

/-- `DECOMPRESS n` (R62). DESIGN CHOICE (entry 14), safe: R62 does not say what "then n times" means for a negative n, which
R61 lets a program write, nor R61 which pattern a value of 2^32 or more stands for. Here a negative n gives no DEC_SAMPLE,
and a value of 2^32 or more is wrapped as R61 wraps a negative one. -/
def decompressOps (n : Int) : List HostOp :=
  decInitOps (BitVec.ofInt 32 n) ++
    (List.replicate n.toNat [commandOp .decSample, HostOp.regRead resultOffset]).flatten ++ [.regRead statusOffset]

end Sys2Proof.Machine
end

