-- ==== Sys2Proof/Tests/Slice0.lean ====
section
/-!
SUPPORT. Tests of the model: command words written out from the spec, its worked examples for single steps, and for every
statement with hypotheses a witness that meets them together.
-/

open Sys2Proof Sys2Proof.Machine

namespace Sys2Proof.Tests

/-! ## Helpers -/

/-- The next state of an outcome, so that outcomes can be compared. -/
def nextOf (o : Host.Outcome State Fault Refusal) : Option State :=
  match o with
  | .next t => some t
  | .fault _ => none
  | .refused _ => none

/-- The fault of an outcome. -/
def faultOf (o : Host.Outcome State Fault Refusal) : Option Fault :=
  match o with
  | .next _ => none
  | .fault f => some f
  | .refused _ => none

/-- The refusal of an outcome. -/
def refusalOf (o : Host.Outcome State Fault Refusal) : Option Refusal :=
  match o with
  | .next _ => none
  | .fault _ => none
  | .refused r => some r

/-- An open encoder session at the start of OUT, coding `x` against `prev`, with `cap` bytes of OUT. -/
def encAt (cap prev x : Word) : State :=
  { State.resetWith 16#32 cap with eState := .opened, ePrev := prev, arg := x }

/-- An active decoder session of `n` samples over the given bytes of IN, all of them written since reset. -/
def decOver (n : Word) (bytes : List Byte) : State :=
  { State.reset with
    dState := .active, dN := n, inLen := BitVec.ofNat 32 bytes.length, dLimit := BitVec.ofNat 64 (8 * bytes.length)
    inMem := bytes.zipIdx.map fun bj => (bj.2, bj.1), inWritten := List.range bytes.length }

/-- The reset state with one access of the host pending. -/
def withOp (op : HostOp) : State := { State.reset with hostOps := [op] }

/-- A state in the middle of a run: 42 is encoded, one sample of 40 08 is decoded, and a decoder error was met before. -/
def midRun : State :=
  { State.reset with
    arg := 7#32, eState := .opened, ePrev := 42#32, wPos := 10#64, outMem := [(0, 0xB4#8), (1, 0x00#8)]
    dState := .active, dN := 3#32, dDone := 1#32, rPos := 5#64, dLimit := 16#64, inLen := 2#32
    inMem := [(0, 0x40#8), (1, 0x08#8)], inWritten := [0, 1], errLog := 0x04#32
    hostOps := [.regWrite 0x00#8 0x00000002#32] }

/-! ## Command words -/

/-- R57: OPC 0000_0001, RSV 0. -/
theorem test_decode_enc_init : decode 0b00000000000000000000000000000001#32 = .ok .encInit := by rfl

/-- R57: OPC 0000_0010, RSV 0. -/
theorem test_decode_enc_sample : decode 0b00000000000000000000000000000010#32 = .ok .encSample := by rfl

/-- R57: OPC 0000_0011, RSV 0. -/
theorem test_decode_enc_finish : decode 0b00000000000000000000000000000011#32 = .ok .encFinish := by rfl

/-- R57: OPC 0000_0100, RSV 0. -/
theorem test_decode_dec_init : decode 0b00000000000000000000000000000100#32 = .ok .decInit := by rfl

/-- R57: OPC 0000_0101, RSV 0. -/
theorem test_decode_dec_sample : decode 0b00000000000000000000000000000101#32 = .ok .decSample := by rfl

/-- R60: each kind of illegal word is rejected by its reason. -/
theorem test_decode_illegal :
    decode 0x00000000#32 = .error .unknownOpcode ∧ decode 0x00000006#32 = .error .unknownOpcode ∧
    decode 0x000000FF#32 = .error .unknownOpcode ∧ decode 0x00000101#32 = .error .reservedBits ∧
    decode 0x80000002#32 = .error .reservedBits := by
  refine ⟨rfl, rfl, rfl, rfl, rfl⟩

/-- R44: lane 0 is the low byte; three bytes are no word. -/
theorem test_decode_lanes :
    decodeBytes [0x02#8, 0x00#8, 0x00#8, 0x00#8, 0xAA#8] = .ok (.encSample, [0xAA#8]) ∧
    decodeBytes [0x00#8, 0x00#8, 0x00#8, 0x02#8] = .error .reservedBits ∧
    decodeBytes [0x02#8, 0x00#8, 0x00#8] = .error .tooFewBytes := by
  refine ⟨rfl, rfl, rfl⟩

/-- WellFormed smoke test, RSV: word 0x101 has a listed opcode and RSV = 1, and the check refuses it (R60). -/
theorem test_wellformed_refuses_rsv :
    rsvIsZero 0x00000101#32 = false ∧ opcIsListed 0x00000101#32 = true ∧ wordWellFormed 0x00000101#32 = false := by
  decide

/-- WellFormed smoke test, OPC: words 0 and 6 have RSV = 0 and an opcode that is not listed (R60). -/
theorem test_wellformed_refuses_opc :
    rsvIsZero 0x00000006#32 = true ∧ opcIsListed 0x00000006#32 = false ∧ wordWellFormed 0x00000006#32 = false ∧
    opcIsListed 0x00000000#32 = false ∧ wordWellFormed 0x00000000#32 = false ∧
    wordWellFormed 0x00000005#32 = true := by
  decide

/-! ## One step of each command, from the worked examples of 47_commands.md -/

/-- R109's example: a FAILED session with E_ERR = 4 is OPEN with E_ERR = 0 and W_POS = 0 after ENC_INIT. -/
theorem test_enc_init_clears_a_failed_session :
    (nextOf (exec .encInit { State.reset with eState := .failed, eErr := .outputOverflow, errLog := 0x10#32, wPos := 15#64 })).map
      (fun t => (t.eState, t.eErr, t.wPos, t.errLog)) = some (.opened, .noError, 0#64, 0x10#32) := by
  decide

/-- R110's example: sample 42 against 0 makes OUT = b4 00, W_POS = 10, E_PREV = 42. -/
theorem test_enc_sample_42 :
    (nextOf (exec .encSample (encAt 16#32 0#32 42#32))).map (fun t => (t.outMem, t.wPos, t.ePrev)) =
      some ([(0, 0xB4#8), (1, 0x00#8)], 10#64, 42#32) := by
  decide

/-- Program P4 of 95_test_vectors.md: with OUT_CAP = 2 and W_POS = 10 a codeword of two groups does not fit. -/
theorem test_enc_sample_overflow :
    (nextOf (exec .encSample { encAt 2#32 42#32 0#32 with wPos := 10#64, outMem := [(0, 0xB4#8), (1, 0x00#8)] })).map
      (fun t => (t.eErr, t.wPos, t.ePrev, t.outMem)) =
      some (.outputOverflow, 10#64, 42#32, [(0, 0xB4#8), (1, 0x00#8)]) := by
  decide

/-- R111's example: W_POS = 15 gives OUT_LEN = 2 and CLOSED. -/
theorem test_enc_finish_15 :
    (nextOf (exec .encFinish { encAt 16#32 0#32 0#32 with wPos := 15#64 })).map (fun t => (t.outLen, t.eState)) =
      some (2#32, .closed) := by
  decide

/-- R112's example: ARG = 3, IN_LEN = 2, IN_CAP = 16 gives an ACTIVE session with D_LIMIT = 16. -/
theorem test_dec_init_active :
    (nextOf (exec .decInit { State.reset with arg := 3#32, inLen := 2#32 })).map
      (fun t => (t.dState, t.dLimit, t.rPos, t.dDone)) = some (.active, 16#64, 0#64, 0#32) := by
  decide

/-- R112's corner: ARG = 0x80000000 is a negative count. -/
theorem test_dec_init_negative :
    (nextOf (exec .decInit { State.reset with arg := 0x80000000#32 })).map (fun t => (t.dState, t.dErr, t.dN, t.errLog)) =
      some (.failed, .invalidSampleCount, 0x80000000#32, 0x02#32) := by
  decide

/-- 95_test_vectors.md section 2.4: b4 00 decodes to 42, R_POS = 10, and the one-sample session is COMPLETE. -/
theorem test_dec_sample_42 :
    (nextOf (exec .decSample (decOver 1#32 [0xB4#8, 0x00#8]))).map (fun t => (t.result, t.rPos, t.dDone, t.dState)) =
      some (42#32, 10#64, 1#32, .complete) := by
  decide

/-- 95_test_vectors.md section 2.4: eight groups 1F and then 03 are out of range; R_POS and RESULT stay. -/
theorem test_dec_sample_out_of_range :
    (nextOf (exec .decSample (decOver 1#32 [0xFF#8, 0xFF#8, 0xFF#8, 0xFF#8, 0xFF#8, 0x03#8]))).map
      (fun t => (t.dState, t.dErr, t.result, t.rPos, t.dDone)) = some (.failed, .integerOverflow, 0#32, 0#64, 0#32) := by
  decide

/-! ## Units and the host's side -/

/-- 95_test_vectors.md sections 2.1 and 2.2: the extreme residuals and their zigzag values. -/
theorem test_extreme_residuals :
    zzToUnsigned (predResidual 0x80000000#32 0x7FFFFFFF#32) = 0x1FFFFFFFD#64 ∧
    zzToUnsigned (predResidual 0x7FFFFFFF#32 0x80000000#32) = 0x1FFFFFFFE#64 ∧
    zzToUnsigned 0x8000000000000000#64 = 0xFFFFFFFFFFFFFFFF#64 ∧
    zzToSigned 0xFFFFFFFFFFFFFFFE#64 = 0x7FFFFFFFFFFFFFFF#64 := by
  decide

/-- 95_test_vectors.md section 2.3: groups of 206 and of 2^32. -/
theorem test_groups :
    ngeGroups 206#64 = [0x1E#5, 0x0C#5] ∧
    ngeGroups 0x100000000#64 = [0x10#5, 0x10#5, 0x10#5, 0x10#5, 0x10#5, 0x10#5, 0x10#5, 0x10#5, 0x01#5] := by
  decide

/-- 95_test_vectors.md section 2.5: a group over a stale byte, and a group across a byte boundary. -/
theorem test_write_group :
    bwWriteGroup ⟨0#64, [(0, 0xFF#8)]⟩ 0x00#5 = ⟨5#64, [(0, 0x00#8)]⟩ ∧
    bwWriteGroup ⟨5#64, [(0, 0x0A#8)]⟩ 0x0F#5 = ⟨10#64, [(0, 0xEA#8), (1, 0x01#8)]⟩ := by
  decide

/-- R35: E_STATE = FAILED with E_ERR = 4 and D_STATE = COMPLETE read as STATUS = 0x004B. -/
theorem test_status :
    ({ State.reset with eState := .failed, eErr := .outputOverflow, dState := .complete } : State).readOffset 0x0C#8 =
      0x004B#32 := by
  decide

/-- R18: the halves of W_POS, and a reserved offset. -/
theorem test_register_halves :
    ({ State.reset with wPos := 0x0000000500000007#64 } : State).readOffset 0x2C#8 = 7#32 ∧
    ({ State.reset with wPos := 0x0000000500000007#64 } : State).readOffset 0x30#8 = 5#32 ∧
    State.reset.readOffset 0x4C#8 = 0#32 ∧ State.reset.readOffset 0x44#8 = 16#32 := by
  decide

/-- R58: the step after an illegal word was placed records CMD_ERR = 7, and IN_LEN takes a host write. -/
theorem test_host_steps :
    (nextOf (step (State.reset.withFetchWord 32 0x101))).map (fun t => (t.cmdErr, t.errLog, t.eState)) =
      some (.illegalCommand, 0x80#32, .idle) ∧
    (nextOf (step (withOp (.regWrite 0x14#8 9#32)))).map (fun t => (t.inLen, t.arg)) = some (9#32, 0#32) := by
  decide

/-- R44 and R46 on a bus: word accesses reach the register window, byte accesses IN and OUT. -/
theorem test_bus_map :
    (⟨0x1000, 0x2000, 0x3000⟩ : BusMap).toHostOp State.reset (.write 0x1004 4 42) = some (.regWrite 0x04#8 42#32) ∧
    (⟨0x1000, 0x2000, 0x3000⟩ : BusMap).toHostOp State.reset (.write 0x200F 1 0xB4) = some (.inWrite 15 0xB4#8) ∧
    (⟨0x1000, 0x2000, 0x3000⟩ : BusMap).toHostOp State.reset (.read 0x2010 1) = none ∧
    (⟨0x1000, 0x2000, 0x3000⟩ : BusMap).toHostOp State.reset (.read 0x1004 2) = none := by
  decide

/-- R62: the pseudo-instructions in their accesses; the last one, a negative count, as entry 14 takes it. -/
theorem test_pseudo_instructions :
    encSampleOps 5#32 = [.regWrite 0x04#8 5#32, .regWrite 0x00#8 2#32] ∧
    loadInOps [0x40#8, 0x08#8] = [.inWrite 0 0x40#8, .inWrite 1 0x08#8, .regWrite 0x14#8 2#32] ∧
    decompressOps 1 = [.regWrite 0x04#8 1#32, .regWrite 0x00#8 4#32, .regWrite 0x00#8 5#32, .regRead 0x08#8,
      .regRead 0x0C#8] ∧
    decompressOps (-1) = [.regWrite 0x04#8 0xFFFFFFFF#32, .regWrite 0x00#8 4#32, .regRead 0x0C#8] := by
  decide

/-! ## Witnesses: for each statement with hypotheses, values that meet them together -/

/-- A bound on stream bits below 48 reduces to the first six bytes. -/
theorem bits_written_of_bytes {s : State} {p n : Nat} (h : ∀ q < p + n, p ≤ q → q / 8 ∈ s.inWritten) :
    BitsWritten s p n := fun q h1 h2 => h q h2 h1

/-- A group count from its bounds. -/
theorem group_count_of_bounds {u k : Nat} (h1 : 1 ≤ k) (h2 : u < 2 ^ (4 * k)) (h3 : k = 1 ∨ 2 ^ (4 * (k - 1)) ≤ u) :
    IsGroupCount u k := by
  refine ⟨h1, h2, fun k' h1' h => ?_⟩
  rcases h3 with rfl | h3
  · exact h1'
  · have h4 := Nat.lt_of_le_of_lt h3 h
    have h5 := (Nat.pow_lt_pow_iff_right (by omega)).1 h4
    omega

/-- O1: the capacities of the model's own reset state, and the extremes. -/
theorem test_witness_reset_values :
    (∃ s, s = State.resetWith 16#32 16#32) ∧ ∃ s, s = State.resetWith 1#32 0xFFFFFFFF#32 := ⟨⟨_, rfl⟩, ⟨_, rfl⟩⟩

/-- O2: reset asserted in the middle of a run. -/
theorem test_witness_reset_step : ({ midRun with hostOps := [.reset] } : State).hostOps = .reset :: [] := rfl

/-- O3: the least and the greatest capacity. -/
theorem test_witness_invariant_at_reset : (1#32 : Word) ≠ 0#32 ∧ (0xFFFFFFFF#32 : Word) ≠ 0#32 := by decide

/-- The invariant holds in the middle of a run. -/
theorem inv_midRun : Inv midRun where
  enc := by
    refine ⟨by decide, by decide, by decide, by decide, fun q h1 h2 => ?_, by decide, by decide, by decide, by decide⟩
    have : ∀ q < 16, 10 ≤ q → streamBit midRun.outByte q = false := by decide
    exact this q (by simpa [midRun, ceilDiv] using h2) (by simpa [midRun] using h1)
  dec := by
    refine ⟨by decide, by decide, by decide, by decide, by decide, by decide, by decide, by decide, by decide⟩
  err := by
    refine ⟨by decide, by decide, fun c h1 h2 => ?_⟩
    revert h1 h2
    cases c <;> decide
  mem := by
    refine ⟨by decide, by decide, by decide, by decide, by decide⟩

/-- O4: a state in the middle of a run, about to encode a second sample. -/
theorem test_witness_step_invariant : Inv midRun ∧ ∃ t, step midRun = .next t := ⟨inv_midRun, _, rfl⟩

/-- O5: a command, its word, its bytes and its bits. -/
theorem test_witness_decode_inverts :
    Instr.encSample.wellFormed = true ∧ decode 0x00000002#32 = .ok .encSample ∧
    decodeTableWord 32 (0x00000002#32 : Word).toNat = some .encSample := ⟨rfl, rfl, rfl⟩

/-- O8: a write of word 2 to CMD pending, and word 5 for `withFetchWord`. -/
theorem test_witness_step_runs :
    NextIsCommand midRun 0x00000002#32 [] ∧ decode 0x00000002#32 = .ok .encSample ∧
    decode 0x00000005#32 = .ok .decSample := ⟨rfl, rfl, rfl⟩

/-- O9: the illegal words next to the legal ones, and one with RSV set. -/
theorem test_witness_illegal_word :
    (NextIsCommand (withOp (.regWrite 0x00#8 6#32)) 6#32 [] ∧ ¬LegalWord 6#32) ∧
    (NextIsCommand (withOp (.regWrite 0x00#8 0#32)) 0#32 [] ∧ ¬LegalWord 0#32) ∧
    (NextIsCommand (withOp (.regWrite 0x00#8 0x101#32)) 0x101#32 [] ∧ ¬LegalWord 0x101#32) := by
  refine ⟨⟨rfl, ?_⟩, ⟨rfl, ?_⟩, ⟨rfl, ?_⟩⟩ <;> unfold LegalWord <;> decide

/-- O10: both clauses, with a next state each. -/
theorem test_witness_cmd_err :
    (NextIsCommand (withOp (.regWrite 0x00#8 5#32)) 5#32 [] ∧ LegalWord 5#32 ∧
      ∃ t, step (withOp (.regWrite 0x00#8 5#32)) = .next t) ∧
    (NextIsCommand (withOp (.regWrite 0x00#8 6#32)) 6#32 [] ∧ ¬LegalWord 6#32 ∧
      ∃ t, step (withOp (.regWrite 0x00#8 6#32)) = .next t) := by
  refine ⟨⟨rfl, ?_, _, rfl⟩, ⟨rfl, ?_, _, rfl⟩⟩ <;> unfold LegalWord <;> decide

/-- O13: sample 42 in 2 groups; one group 0; 8 groups that fill OUT to its last bit; and 9 groups for the greatest jump. -/
theorem test_witness_enc_sample :
    ((encAt 16#32 0#32 42#32).eState = .opened ∧ 84 = zigzag ((42#32 : Word).toInt - (0#32 : Word).toInt) ∧
      IsGroupCount 84 2 ∧ ceilDiv (0 + 5 * 2) 8 ≤ 16) ∧
    (0 = zigzag ((42#32 : Word).toInt - (42#32 : Word).toInt) ∧ IsGroupCount 0 1) ∧
    ((encAt 5#32 0#32 0x80000000#32).eState = .opened ∧
      4294967295 = zigzag ((0x80000000#32 : Word).toInt - (0#32 : Word).toInt) ∧ IsGroupCount 4294967295 8 ∧
      ceilDiv (0 + 5 * 8) 8 ≤ (encAt 5#32 0#32 0x80000000#32).capOut.toNat) ∧
    (8589934589 = zigzag ((0x80000000#32 : Word).toInt - (0x7FFFFFFF#32 : Word).toInt) ∧ IsGroupCount 8589934589 9) := by
  refine ⟨⟨rfl, by decide, group_count_of_bounds ?_ ?_ ?_, by decide⟩, ⟨by decide, group_count_of_bounds ?_ ?_ ?_⟩,
    ⟨rfl, by decide, group_count_of_bounds ?_ ?_ ?_, by decide⟩, ⟨by decide, group_count_of_bounds ?_ ?_ ?_⟩⟩ <;> decide

/-- O14: 8 groups with one byte too few (40 bits, OUT_CAP = 4). -/
theorem test_witness_enc_sample_no_room :
    (encAt 4#32 0#32 0x80000000#32).eState = .opened ∧
    IsGroupCount (zigzag ((encAt 4#32 0#32 0x80000000#32).arg.toInt - (encAt 4#32 0#32 0x80000000#32).ePrev.toInt)) 8 ∧
    (encAt 4#32 0#32 0x80000000#32).capOut.toNat < ceilDiv ((encAt 4#32 0#32 0x80000000#32).wPos.toNat + 5 * 8) 8 := by
  refine ⟨rfl, group_count_of_bounds ?_ ?_ ?_, ?_⟩ <;> decide

/-- O15: IDLE at reset, and a CLOSED session. -/
theorem test_witness_enc_out_of_sequence :
    State.reset.eState = .idle ∧ ({ State.reset with eState := .closed } : State).eState = .closed := ⟨rfl, rfl⟩

/-- O16: an open session that finishes, IDLE at reset, a CLOSED and a FAILED session. -/
theorem test_witness_enc_finish :
    midRun.eState = .opened ∧ State.reset.eState = .idle ∧
    ({ State.reset with eState := .closed } : State).eState = .closed ∧
    ({ State.reset with eState := .failed } : State).eState = .failed ∧ ∃ t, exec .encFinish midRun = .next t :=
  ⟨rfl, rfl, rfl, rfl, _, rfl⟩

/-- O17: an open session in a sound state, with a bit count that needs padding. -/
theorem test_witness_finished_stream :
    Inv midRun ∧ midRun.eState = .opened ∧ ∃ t, exec .encFinish midRun = .next t := ⟨inv_midRun, rfl, _, rfl⟩

/-- O18: a failed encoder session, a failed decoder session, and commands that answer in them. -/
theorem test_witness_failed_session :
    (({ State.reset with eState := .failed } : State).eState = .failed ∧
      ∃ t, exec .decInit { State.reset with eState := .failed } = .next t) ∧
    (({ State.reset with dState := .failed } : State).dState = .failed ∧
      ∃ t, exec .encInit { State.reset with dState := .failed } = .next t) ∧
    Instr.decInit ≠ .encInit ∧ Instr.encInit ≠ .decInit := ⟨⟨rfl, _, rfl⟩, ⟨rfl, _, rfl⟩, by decide, by decide⟩

/-- O19: each state of the encoder's table. -/
theorem test_witness_encoder_states :
    State.reset.eState = .idle ∧ midRun.eState = .opened ∧
    ({ State.reset with eState := .closed } : State).eState = .closed ∧
    ({ State.reset with eState := .failed } : State).eState = .failed := ⟨rfl, rfl, rfl, rfl⟩

/-- O20, O21: each encoder command answers in the middle of a run; bytes below and above what ENC_SAMPLE writes exist. -/
theorem test_witness_encoder_frame :
    (∃ t, exec .encInit midRun = .next t) ∧ (∃ t, exec .encSample midRun = .next t ∧
      (0 < midRun.wPos.toNat / 8 ∨ ceilDiv t.wPos.toNat 8 ≤ 0) ∧ (5 < midRun.wPos.toNat / 8 ∨ ceilDiv t.wPos.toNat 8 ≤ 5)) ∧
    (∃ t, exec .encFinish midRun = .next t) := by
  refine ⟨⟨_, rfl⟩, ⟨_, rfl, .inl (by decide), .inr (by decide)⟩, ⟨_, rfl⟩⟩

/-- O22: a sample that is encoded, coded against 0. -/
theorem test_witness_sample_cost :
    (encAt 16#32 0#32 0x80000000#32).eState = .opened ∧ (encAt 16#32 0#32 0x80000000#32).ePrev = 0#32 ∧
    ∃ t, exec .encSample (encAt 16#32 0#32 0x80000000#32) = .next t ∧ t.eState = .opened := ⟨rfl, rfl, _, rfl, rfl⟩

/-- O23: a state no run reaches, in which E_ERR already holds code 3. -/
theorem test_witness_no_integer_overflow :
    ∃ t, exec .encSample { State.reset with eState := .failed, eErr := .integerOverflow } = .next t ∧
      t.eErr = .integerOverflow := ⟨_, rfl, rfl⟩

/-- O24: two states that differ in the decoder session and agree in the encoder's. -/
theorem test_witness_encoder_view :
    encView midRun = encView { midRun with dState := .failed, dPrev := 9#32, inMem := [], inWritten := [], errLog := 0#32 } ∧
    midRun ≠ { midRun with dState := .failed, dPrev := 9#32, inMem := [], inWritten := [], errLog := 0#32 } := by
  exact ⟨rfl, by decide⟩

/-- O25, O30: the context of a session's first sample is 0, at both ends of the sample range. -/
theorem test_witness_first_sample :
    (0#32 : Word) = 0#32 ∧ (predResidual 0x80000000#32 0#32).toInt = -2 ^ 31 ∧
    (predResidual 0x7FFFFFFF#32 0#32).toInt = 2 ^ 31 - 1 := by
  decide

/-- O26: the sums at the edges of the sample range, inside and outside. -/
theorem test_witness_reconstruct :
    (-2 ^ 31 ≤ (0x7FFFFFFF#32 : Word).toInt + (0xFFFFFFFF00000001#64 : DWord).toInt ∧
      (0x7FFFFFFF#32 : Word).toInt + (0xFFFFFFFF00000001#64 : DWord).toInt ≤ 2 ^ 31 - 1) ∧
    2 ^ 31 - 1 < (0x7FFFFFFF#32 : Word).toInt + (1#64 : DWord).toInt ∧
    (0x80000000#32 : Word).toInt + (0xFFFFFFFFFFFFFFFF#64 : DWord).toInt < -2 ^ 31 := by
  decide

/-- O29: residuals of smaller and greater magnitude, of opposite signs. -/
theorem test_witness_zigzag_order :
    (0xFFFFFFFFFFFFFFF9#64 : DWord).toInt.natAbs < (8#64 : DWord).toInt.natAbs ∧
    (7#64 : DWord).toInt.natAbs < (0x8000000000000000#64 : DWord).toInt.natAbs := by
  decide

/-- O31: the counts of 84, of 15 and 16 (where a second group begins), and of the greatest 64-bit value. -/
theorem test_witness_group_count :
    IsGroupCount (84#64 : DWord).toNat 2 ∧ IsGroupCount (15#64 : DWord).toNat 1 ∧ IsGroupCount (16#64 : DWord).toNat 2 ∧
    IsGroupCount (0xFFFFFFFFFFFFFFFF#64 : DWord).toNat 16 := by
  refine ⟨group_count_of_bounds ?_ ?_ ?_, group_count_of_bounds ?_ ?_ ?_, group_count_of_bounds ?_ ?_ ?_,
    group_count_of_bounds ?_ ?_ ?_⟩ <;> decide

/-- O32: the greatest value of at most 9 groups, and a codeword of more than one group. -/
theorem test_witness_codeword :
    (0xFFFFFFFFF#64 : DWord).toNat < 2 ^ 36 ∧ 1 < (ngeGroups 0xFFFFFFFFF#64).length := by
  decide

/-- Every session of `decOver` is ACTIVE, at R_POS = 0, with D_PREV = 0 and D_LIMIT at the end of its bytes: the hypotheses the
witnesses below share. -/
theorem decOver_shape (n : Word) (bytes : List Byte) :
    (decOver n bytes).dState = .active ∧ (decOver n bytes).rPos.toNat = 0 ∧ (decOver n bytes).dPrev.toInt = 0 ∧
    (decOver n bytes).dLimit = BitVec.ofNat 64 (8 * bytes.length) := ⟨rfl, rfl, rfl, rfl⟩

/-- O33: the codeword of 84 at bit 0 of b4 00. -/
theorem test_witness_reads_back :
    (84#64 : DWord).toNat < 2 ^ 36 ∧ StreamHolds (decOver 1#32 [0xB4#8, 0x00#8]).inByte 0 (ngeGroups 84#64) ∧
    (decOver 1#32 [0xB4#8, 0x00#8]).rPos.toNat + 5 * (ngeGroups 84#64).length ≤
      (decOver 1#32 [0xB4#8, 0x00#8]).dLimit.toNat ∧
    BitsWritten (decOver 1#32 [0xB4#8, 0x00#8]) 0 (5 * (ngeGroups 84#64).length) := by
  refine ⟨by decide, by unfold StreamHolds; decide, by decide, bits_written_of_bytes (by decide)⟩

/-- O34: 15 00 (one group and a padding group, 95 section 2.4), and eight groups 1F with 00, the longest codeword. -/
theorem test_witness_non_canonical :
    (AllContinue [0x15#5] ∧ StreamHolds (decOver 1#32 [0x15#8, 0x00#8]).inByte 0 ([0x15#5] ++ List.replicate 0 0x10#5 ++ [0x00#5]) ∧
      BitsWritten (decOver 1#32 [0x15#8, 0x00#8]) 0 (5 * (1 + 0 + 1)) ∧ 0 + 5 * (1 + 0 + 1) ≤ 16) ∧
    (AllContinue (List.replicate 8 0x1F#5) ∧ (List.replicate 8 0x1F#5).length + 0 + 1 ≤ 9 ∧
      StreamHolds (decOver 1#32 [0xFF#8, 0xFF#8, 0xFF#8, 0xFF#8, 0xFF#8, 0x00#8]).inByte 0
        (List.replicate 8 0x1F#5 ++ List.replicate 0 0x10#5 ++ [0x00#5]) ∧
      BitsWritten (decOver 1#32 [0xFF#8, 0xFF#8, 0xFF#8, 0xFF#8, 0xFF#8, 0x00#8]) 0 (5 * (8 + 0 + 1)) ∧
      0 + 5 * (8 + 0 + 1) ≤ 48) := by
  refine ⟨⟨by unfold AllContinue; decide, by unfold StreamHolds; decide, bits_written_of_bytes (by decide), by decide⟩,
    ⟨by unfold AllContinue; decide, by decide, by unfold StreamHolds; decide, bits_written_of_bytes (by decide), by decide⟩⟩

/-- O35: the clauses at the counts and lengths next to their bounds, and a session over no input. -/
theorem test_witness_dec_init :
    (0xFFFFFFFF#32 : Word).toInt < 0 ∧ (0#32 : Word).toInt = 0 ∧
    (0 < (1#32 : Word).toInt ∧ (16#32 : Word).toNat < (17#32 : Word).toNat) ∧
    (0 < (0x7FFFFFFF#32 : Word).toInt ∧ (16#32 : Word).toNat ≤ (16#32 : Word).toNat) ∧
    (0 < ({ State.reset with arg := 1#32 } : State).arg.toInt ∧ State.reset.inLen = 0#32 ∧
      ∃ t, exec .decInit { State.reset with arg := 1#32 } = .next t) := by
  exact ⟨by decide, by decide, by decide, by decide, by decide, rfl, _, rfl⟩

/-- O36: b4 00 gives 42; eight groups 1F and 00 give the least sample, -2^31. -/
theorem test_witness_dec_sample :
    ((decOver 1#32 [0xB4#8, 0x00#8]).dState = .active ∧ AllContinue [0x14#5] ∧ (0x05#5 : Group).getLsbD 4 = false ∧
      StreamHolds (decOver 1#32 [0xB4#8, 0x00#8]).inByte 0 ([0x14#5] ++ [0x05#5]) ∧
      (0 + 5 * (1 + 1) ≤ (decOver 1#32 [0xB4#8, 0x00#8]).dLimit.toNat) ∧
      BitsWritten (decOver 1#32 [0xB4#8, 0x00#8]) 0 (5 * (1 + 1)) ∧ groupsValue [0x14#5, 0x05#5] < 2 ^ 34 ∧
      (42 : Int) = 0 + unzigzag (groupsValue [0x14#5, 0x05#5])) ∧
    (AllContinue (List.replicate 8 0x1F#5) ∧ (List.replicate 8 0x1F#5).length ≤ 8 ∧
      StreamHolds (decOver 1#32 [0xFF#8, 0xFF#8, 0xFF#8, 0xFF#8, 0xFF#8, 0x00#8]).inByte 0
        (List.replicate 8 0x1F#5 ++ [0x00#5]) ∧
      BitsWritten (decOver 1#32 [0xFF#8, 0xFF#8, 0xFF#8, 0xFF#8, 0xFF#8, 0x00#8]) 0 (5 * (8 + 1)) ∧
      groupsValue (List.replicate 8 0x1F#5 ++ [0x00#5]) < 2 ^ 34 ∧
      (-2 ^ 31 : Int) = 0 + unzigzag (groupsValue (List.replicate 8 0x1F#5 ++ [0x00#5]))) := by
  refine ⟨⟨rfl, by unfold AllContinue; decide, by decide, by unfold StreamHolds; decide, by decide,
    bits_written_of_bytes (by decide), by decide, by decide⟩,
    ⟨by unfold AllContinue; decide, by decide, by unfold StreamHolds; decide, bits_written_of_bytes (by decide), by decide,
    by decide⟩⟩

/-- O37: no input at all; one group and no room for a second; eight groups in 40 bits and no room for a ninth. -/
theorem test_witness_short_input :
    ((decOver 1#32 []).dState = .active ∧ StreamHolds (decOver 1#32 []).inByte 0 [] ∧ BitsWritten (decOver 1#32 []) 0 0 ∧
      (decOver 1#32 []).dLimit.toNat < 0 + 5 * (0 + 1)) ∧
    (AllContinue [0x10#5] ∧ StreamHolds (decOver 1#32 [0x10#8]).inByte 0 [0x10#5] ∧ 0 + 5 * 1 ≤ (decOver 1#32 [0x10#8]).dLimit.toNat ∧
      BitsWritten (decOver 1#32 [0x10#8]) 0 5 ∧ (decOver 1#32 [0x10#8]).dLimit.toNat < 0 + 5 * (1 + 1)) ∧
    (StreamHolds (decOver 1#32 (List.replicate 5 0xFF#8)).inByte 0 (List.replicate 8 0x1F#5) ∧
      0 + 5 * 8 ≤ (decOver 1#32 (List.replicate 5 0xFF#8)).dLimit.toNat ∧
      BitsWritten (decOver 1#32 (List.replicate 5 0xFF#8)) 0 40 ∧
      (decOver 1#32 (List.replicate 5 0xFF#8)).dLimit.toNat < 0 + 5 * (8 + 1)) := by
  refine ⟨⟨rfl, by unfold StreamHolds; decide, bits_written_of_bytes (by decide), by decide⟩,
    ⟨by unfold AllContinue; decide, by unfold StreamHolds; decide, by decide, bits_written_of_bytes (by decide), by decide⟩,
    ⟨by unfold StreamHolds; decide, by decide, bits_written_of_bytes (by decide), by decide⟩⟩

/-- O38: ff ff ff ff ff 1f holds nine groups 1F (95 section 2.4). -/
theorem test_witness_nine_groups :
    (decOver 1#32 [0xFF#8, 0xFF#8, 0xFF#8, 0xFF#8, 0xFF#8, 0x1F#8]).dState = .active ∧
    AllContinue (List.replicate 9 0x1F#5) ∧ (List.replicate 9 0x1F#5).length = 9 ∧
    StreamHolds (decOver 1#32 [0xFF#8, 0xFF#8, 0xFF#8, 0xFF#8, 0xFF#8, 0x1F#8]).inByte 0 (List.replicate 9 0x1F#5) ∧
    0 + 45 ≤ (decOver 1#32 [0xFF#8, 0xFF#8, 0xFF#8, 0xFF#8, 0xFF#8, 0x1F#8]).dLimit.toNat ∧
    BitsWritten (decOver 1#32 [0xFF#8, 0xFF#8, 0xFF#8, 0xFF#8, 0xFF#8, 0x1F#8]) 0 45 := by
  refine ⟨rfl, by unfold AllContinue; decide, by decide, by unfold StreamHolds; decide, by decide,
    bits_written_of_bytes (by decide)⟩

/-- O39: the three clauses, each from a row of 95 section 2.4: u at or above 2^34, a sample below and one above the range. -/
theorem test_witness_out_of_range :
    (AllContinue (List.replicate 8 0x1F#5) ∧ (0x04#5 : Group).getLsbD 4 = false ∧
      StreamHolds (decOver 1#32 [0xFF#8, 0xFF#8, 0xFF#8, 0xFF#8, 0xFF#8, 0x04#8]).inByte 0 (List.replicate 8 0x1F#5 ++ [0x04#5]) ∧
      BitsWritten (decOver 1#32 [0xFF#8, 0xFF#8, 0xFF#8, 0xFF#8, 0xFF#8, 0x04#8]) 0 (5 * (8 + 1)) ∧
      2 ^ 34 ≤ groupsValue (List.replicate 8 0x1F#5 ++ [0x04#5])) ∧
    (StreamHolds (decOver 1#32 [0xFF#8, 0xFF#8, 0xFF#8, 0xFF#8, 0xFF#8, 0x01#8]).inByte 0 (List.replicate 8 0x1F#5 ++ [0x01#5]) ∧
      BitsWritten (decOver 1#32 [0xFF#8, 0xFF#8, 0xFF#8, 0xFF#8, 0xFF#8, 0x01#8]) 0 (5 * (8 + 1)) ∧
      0 + unzigzag (groupsValue (List.replicate 8 0x1F#5 ++ [0x01#5])) < -2 ^ 31) ∧
    (AllContinue (List.replicate 8 0x10#5) ∧
      StreamHolds (decOver 1#32 [0x10#8, 0x42#8, 0x08#8, 0x21#8, 0x84#8, 0x01#8]).inByte 0 (List.replicate 8 0x10#5 ++ [0x01#5]) ∧
      BitsWritten (decOver 1#32 [0x10#8, 0x42#8, 0x08#8, 0x21#8, 0x84#8, 0x01#8]) 0 (5 * (8 + 1)) ∧
      2 ^ 31 - 1 < 0 + unzigzag (groupsValue (List.replicate 8 0x10#5 ++ [0x01#5]))) := by
  refine ⟨⟨by unfold AllContinue; decide, by decide, by unfold StreamHolds; decide, bits_written_of_bytes (by decide), by decide⟩,
    ⟨by unfold StreamHolds; decide, bits_written_of_bytes (by decide), by decide⟩,
    ⟨by unfold AllContinue; decide, by unfold StreamHolds; decide, bits_written_of_bytes (by decide), by decide⟩⟩

/-- O40: IDLE at reset, and a COMPLETE session. -/
theorem test_witness_dec_out_of_sequence :
    (State.reset.dState = .idle ∨ State.reset.dState = .complete) ∧
    (({ State.reset with dState := .complete } : State).dState = .idle ∨
      ({ State.reset with dState := .complete } : State).dState = .complete) := by
  decide

/-- O41: no byte written; and byte 0 written with its first group continuing into byte 1, which is not. The two faults. -/
theorem test_witness_unwritten :
    (0 + 5 ≤ ({ decOver 1#32 [0x10#8, 0x00#8] with inWritten := [] } : State).dLimit.toNat ∧
      0 / 8 ∉ ({ decOver 1#32 [0x10#8, 0x00#8] with inWritten := [] } : State).inWritten ∧
      faultOf (exec .decSample { decOver 1#32 [0x10#8, 0x00#8] with inWritten := [] }) = some (.unwrittenInRead 0)) ∧
    (AllContinue [0x10#5] ∧
      StreamHolds ({ decOver 1#32 [0x10#8, 0x00#8] with inWritten := [0] } : State).inByte 0 [0x10#5] ∧
      BitsWritten { decOver 1#32 [0x10#8, 0x00#8] with inWritten := [0] } 0 5 ∧
      5 / 8 ∈ ({ decOver 1#32 [0x10#8, 0x00#8] with inWritten := [0] } : State).inWritten ∧
      (5 + 4) / 8 ∉ ({ decOver 1#32 [0x10#8, 0x00#8] with inWritten := [0] } : State).inWritten ∧
      faultOf (exec .decSample { decOver 1#32 [0x10#8, 0x00#8] with inWritten := [0] }) = some (.unwrittenInRead 1)) := by
  refine ⟨⟨by decide, by decide, by decide⟩, ⟨by unfold AllContinue; decide, by unfold StreamHolds; decide,
    bits_written_of_bytes (by decide), by decide, by decide, by decide⟩⟩

/-- O42: two bytes loaded before the session. -/
theorem test_witness_loaded : InputLoaded (decOver 3#32 [0x40#8, 0x08#8]) := by
  intro j h
  have : j = 0 ∨ j = 1 := by simp [decOver] at h; omega
  rcases this with rfl | rfl <;> decide

/-- O43: each decoder command answers in the middle of a run. -/
theorem test_witness_decoder_frame :
    (∃ t, exec .decInit midRun = .next t) ∧ ∃ t, exec .decSample midRun = .next t := ⟨⟨_, rfl⟩, ⟨_, rfl⟩⟩

/-- O44: two states that differ in the encoder session and in IN from D_LIMIT on; one that answers and one that faults. -/
theorem test_witness_decoder_view :
    (decRegs midRun = decRegs { midRun with eState := .failed, outMem := [], inMem := [(0, 0x40#8), (1, 0x08#8), (2, 0xFF#8)] } ∧
      SameInBelow midRun.dLimit.toNat midRun
        { midRun with eState := .failed, outMem := [], inMem := [(0, 0x40#8), (1, 0x08#8), (2, 0xFF#8)] }) ∧
    (decRegs { midRun with inWritten := [0] } = decRegs { midRun with inWritten := [0], eState := .failed } ∧
      SameInBelow 16 { midRun with inWritten := [0] } { midRun with inWritten := [0], eState := .failed } ∧
      faultOf (exec .decSample { midRun with inWritten := [0] }) = some (.unwrittenInRead 1)) := by
  refine ⟨⟨rfl, fun j h => ?_⟩, ⟨rfl, fun j h => ⟨rfl, Iff.rfl⟩, by decide⟩⟩
  have : j = 0 ∨ j = 1 := by simp [midRun] at h; omega
  rcases this with rfl | rfl <;> decide

/-- O45: a zero byte. -/
theorem test_witness_zero_group :
    (decOver 1#32 [0x00#8]).dState = .active ∧ 0 + 5 ≤ (decOver 1#32 [0x00#8]).dLimit.toNat ∧
    BitsWritten (decOver 1#32 [0x00#8]) 0 5 ∧ ∀ j < 5, streamBit (decOver 1#32 [0x00#8]).inByte (0 + j) = false := by
  refine ⟨rfl, by decide, bits_written_of_bytes (by decide), by decide⟩

/-- O46: the encoder of 42 and a decoder over its bytes b4 00. -/
theorem test_witness_round_trip :
    (encAt 16#32 0#32 42#32).eState = .opened ∧ (decOver 1#32 [0xB4#8, 0x00#8]).dState = .active ∧
    ∃ t, exec .encSample (encAt 16#32 0#32 42#32) = .next t ∧ t.eState = .opened ∧
      (decOver 1#32 [0xB4#8, 0x00#8]).dPrev = 0#32 ∧ (decOver 1#32 [0xB4#8, 0x00#8]).rPos = 0#64 ∧
      t.wPos.toNat ≤ (decOver 1#32 [0xB4#8, 0x00#8]).dLimit.toNat ∧
      BitsWritten (decOver 1#32 [0xB4#8, 0x00#8]) 0 (t.wPos.toNat - 0) ∧
      ∀ q, 0 ≤ q → q < t.wPos.toNat → streamBit (decOver 1#32 [0xB4#8, 0x00#8]).inByte q = streamBit t.outByte q := by
  refine ⟨rfl, rfl, _, rfl, rfl, rfl, rfl, by decide, bits_written_of_bytes (by decide), fun q _ h => ?_⟩
  revert q
  decide

/-- O48: the first and the last reserved offset. -/
theorem test_witness_reserved_offsets : 0x4C ≤ (0x4C#8 : BitVec 8).toNat ∧ 0x4C ≤ (0xFF#8 : BitVec 8).toNat := by decide

/-- O49: a read of STATUS pending. -/
theorem test_witness_reg_read :
    (withOp (.regRead 0x0C#8)).hostOps = .regRead 0x0C#8 :: [] ∧ (0x0C#8 : BitVec 8).toNat % 4 = 0 := ⟨rfl, rfl⟩

/-- O50: writes to ARG, to IN_LEN, to a read-only register and to the last reserved word. -/
theorem test_witness_reg_write :
    (withOp (.regWrite 0x04#8 7#32)).hostOps = .regWrite 0x04#8 7#32 :: [] ∧
    ∀ off ∈ [0x04#8, 0x14#8, 0x18#8, 0xFC#8], off.toNat % 4 = 0 ∧ off ≠ (0x00#8 : BitVec 8) := by
  exact ⟨rfl, by decide⟩

/-- O51: a write to the last byte of IN, and another index. -/
theorem test_witness_in_write :
    (withOp (.inWrite 15 0xAB#8)).hostOps = .inWrite 15 0xAB#8 :: [] ∧ 15 < State.reset.capIn.toNat ∧ (0 : Nat) ≠ 15 := by
  exact ⟨rfl, by decide, by decide⟩

/-- O52: reads of a written and of an unwritten byte of IN and of OUT. -/
theorem test_witness_byte_reads :
    ({ midRun with hostOps := [.inRead 1] } : State).hostOps = .inRead 1 :: [] ∧ midRun.inMem.read 1 = some 0x08#8 ∧
    midRun.inMem.read 15 = none ∧ 15 < midRun.capIn.toNat ∧
    ({ midRun with hostOps := [.outRead 0] } : State).hostOps = .outRead 0 :: [] ∧ midRun.outMem.read 0 = some 0xB4#8 ∧
    midRun.outMem.read 2 = none ∧ 15 < midRun.capOut.toNat := by
  exact ⟨rfl, by decide, by decide, by decide, rfl, by decide, by decide, by decide⟩

/-- O53: an offset of each alignment, a write to OUT, and the first index beyond each buffer. -/
theorem test_witness_unadmitted :
    refusalOf (step (withOp (.regWrite 0x05#8 0#32))) = some (.misalignedRegisterAccess 0x05#8) ∧
    refusalOf (step (withOp (.regRead 0x02#8))) = some (.misalignedRegisterAccess 0x02#8) ∧
    refusalOf (step (withOp (.outWrite 0 0#8))) = some (.hostWriteToOut 0) ∧
    refusalOf (step (withOp (.inWrite 16 0#8))) = some (.bufferIndexOutOfRange 16) ∧
    refusalOf (step (withOp (.outRead 16))) = some (.bufferIndexOutOfRange 16) := by
  decide

/-- O54: nothing pending at reset. -/
theorem test_witness_nothing_pending : State.reset.hostOps = [] := rfl

/-- O55: a step that newly records code 5 in E_ERR, one that records code 2 in D_ERR, one that records code 7. -/
theorem test_witness_history :
    (∃ t, step (withOp (.regWrite 0x00#8 2#32)) = .next t ∧ t.eErr ≠ State.reset.eErr ∧ t.eErr ≠ .noError) ∧
    (∃ t, step { decOver 1#32 [] with hostOps := [.regWrite 0x00#8 5#32] } = .next t ∧ t.dErr ≠ .noError) ∧
    (∃ t, step (withOp (.regWrite 0x00#8 6#32)) = .next t ∧ t.cmdErr ≠ .noError) ∧
    ∀ ops, (withOp (.regWrite 0x00#8 2#32)).hostOps ≠ .reset :: ops := by
  refine ⟨⟨_, rfl, by decide, by decide⟩, ⟨_, rfl, by decide⟩, ⟨_, rfl, by decide⟩, by simp [withOp]⟩

/-- O56: commands that move each cursor. -/
theorem test_witness_cursors :
    (∃ t, exec .encSample midRun = .next t ∧ t.wPos ≠ midRun.wPos) ∧
    (∃ t, exec .decSample midRun = .next t ∧ t.rPos ≠ midRun.rPos) ∧
    Instr.encSample ≠ .encInit ∧ Instr.decSample ≠ .decInit := by
  refine ⟨⟨_, rfl, by decide⟩, ⟨_, rfl, by decide⟩, by decide, by decide⟩

/-- O57: for each register and memory named, a step that changes it: the host's writes. -/
theorem test_witness_host_writers :
    (∃ t, step (withOp (.regWrite 0x04#8 9#32)) = .next t ∧ t.arg ≠ State.reset.arg) ∧
    (∃ t, step (withOp (.regWrite 0x14#8 9#32)) = .next t ∧ t.inLen ≠ State.reset.inLen) ∧
    (∃ t, step (withOp (.inWrite 3 9#8)) = .next t ∧ t.inMem ≠ State.reset.inMem) ∧
    ∀ ops, (withOp (.inWrite 3 9#8)).hostOps ≠ .reset :: ops := by
  refine ⟨⟨_, rfl, by decide⟩, ⟨_, rfl, by decide⟩, ⟨_, rfl, by decide⟩, by simp [withOp]⟩

/-- O57: the encoder's registers and OUT, by words 1, 2 and 3, and the error fields. -/
theorem test_witness_encoder_writers :
    (∃ t, step midRun = .next t ∧ t.ePrev ≠ midRun.ePrev ∧ t.wPos ≠ midRun.wPos ∧ t.outMem ≠ midRun.outMem) ∧
    (∃ t, step { midRun with hostOps := [.regWrite 0x00#8 3#32] } = .next t ∧ t.eState ≠ midRun.eState ∧
      t.outLen ≠ midRun.outLen) ∧
    (∃ t, step { midRun with hostOps := [.regWrite 0x00#8 1#32] } = .next t ∧ t.ePrev ≠ midRun.ePrev ∧
      t.wPos ≠ midRun.wPos) ∧
    (∃ t, step (withOp (.regWrite 0x00#8 2#32)) = .next t ∧ t.eErr ≠ State.reset.eErr ∧ t.errLog ≠ State.reset.errLog) ∧
    (∃ t, step (withOp (.regWrite 0x00#8 6#32)) = .next t ∧ t.cmdErr ≠ State.reset.cmdErr) ∧
    ∀ ops, midRun.hostOps ≠ .reset :: ops := by
  refine ⟨⟨_, rfl, by decide, by decide, by decide⟩, ⟨_, rfl, by decide, by decide⟩, ⟨_, rfl, by decide, by decide⟩,
    ⟨_, rfl, by decide, by decide⟩, ⟨_, rfl, by decide⟩, by simp [midRun]⟩

/-- O57: RESULT and the decoder's registers, by words 4 and 5. -/
theorem test_witness_decoder_writers :
    (∃ t, step { decOver 1#32 [0xB4#8, 0x00#8] with hostOps := [.regWrite 0x00#8 5#32] } = .next t ∧
      t.result ≠ (decOver 1#32 [0xB4#8, 0x00#8]).result ∧ t.dState ≠ (decOver 1#32 [0xB4#8, 0x00#8]).dState ∧
      t.dPrev ≠ (decOver 1#32 [0xB4#8, 0x00#8]).dPrev ∧ t.rPos ≠ (decOver 1#32 [0xB4#8, 0x00#8]).rPos ∧
      t.dDone ≠ (decOver 1#32 [0xB4#8, 0x00#8]).dDone) ∧
    (∃ t, step { decOver 1#32 [] with hostOps := [.regWrite 0x00#8 5#32] } = .next t ∧ t.dErr ≠ (decOver 1#32 []).dErr) ∧
    (∃ t, step { State.reset with arg := 3#32, inLen := 2#32, hostOps := [.regWrite 0x00#8 4#32] } = .next t ∧
      t.dN ≠ State.reset.dN ∧ t.dLimit ≠ State.reset.dLimit ∧ t.dState ≠ State.reset.dState) := by
  refine ⟨⟨_, rfl, by decide, by decide, by decide, by decide, by decide⟩, ⟨_, rfl, by decide⟩,
    ⟨_, rfl, by decide, by decide, by decide⟩⟩

/-- O58: a DEC_SAMPLE that fails for want of input. -/
theorem test_witness_failed_dec_sample :
    ∃ t, exec .decSample (decOver 1#32 []) = .next t ∧ t.dState = .failed := ⟨_, rfl, rfl⟩

end Sys2Proof.Tests
end

section
/-!
SUPPORT. What a write to CMD does (47_commands.md R108), and what every command leaves in CMD_ERR (10_state.md R36).
-/

namespace Sys2Proof.Machine

/-! ### Legal words decode -/

/-- RSV is 0 exactly when the word has no bit above bit 7 (R56). -/
theorem rsvField_eq_zero_iff (w : Word) : rsvField w = 0#24 ↔ w.toNat / 256 = 0 := by
  have hw := w.isLt
  rw [← BitVec.toNat_inj, rsvField, BitVec.extractLsb'_toNat, Nat.shiftRight_eq_div_pow, BitVec.toNat_ofNat]
  omega

/-- OPC as a number (R56). -/
theorem opcField_toNat (w : Word) : (opcField w).toNat = w.toNat % 256 := by
  simp [opcField]

/-- The listed opcodes are 1 to 5 (R57). -/
theorem decodeOpcode_ok_iff (opc : BitVec 8) : (∃ i, decodeOpcode opc = .ok i) ↔ 1 ≤ opc.toNat ∧ opc.toNat ≤ 5 := by
  simp only [decodeOpcode, ← BitVec.toNat_inj, BitVec.toNat_ofNat]
  split_ifs <;> simp <;> omega

/-- The words that decode are the legal ones (R58, R60). -/
theorem decode_ok_iff_legalWord (w : Word) : (∃ i, decode w = .ok i) ↔ LegalWord w := by
  rw [LegalWord, ← rsvField_eq_zero_iff, ← opcField_toNat, ← decodeOpcode_ok_iff]
  by_cases h : rsvField w = 0#24 <;> simp [decode, h]

/-! ### A write to CMD -/

/-- A write to CMD issues its word on the state without that access (R108). -/
theorem step_of_nextIsCommand {s : State} {w : Word} {ops : List HostOp} (h : NextIsCommand s w ops) :
    step s = issue w { s with hostOps := ops } := by
  unfold NextIsCommand at h
  rw [step, hostStep, h]
  rfl

/-! ### CMD_ERR after a command -/

theorem execEncSample_cmdErr {s t : State} (h : execEncSample s = .next t) : t.cmdErr = .noError := by
  cases execEncSample_cases s with
  | ignored _ heq | sequence _ heq | range _ _ heq | overflow _ _ heq | wrote _ _ _ heq => cases heq.symm.trans h; rfl

theorem execEncFinish_cmdErr {s t : State} (h : execEncFinish s = .next t) : t.cmdErr = .noError := by
  obtain ⟨-, heq⟩ | ⟨-, heq⟩ | ⟨-, heq⟩ := execEncFinish_cases s <;> cases heq.symm.trans h <;> rfl

theorem execDecInit_cmdErr {s t : State} (h : execDecInit s = .next t) : t.cmdErr = .noError := by
  obtain ⟨-, heq⟩ | ⟨-, heq⟩ | ⟨-, -, heq⟩ | ⟨-, -, heq⟩ := execDecInit_cases s <;> cases heq.symm.trans h <;> rfl

theorem execDecSample_cmdErr {s t : State} (h : execDecSample s = .next t) : t.cmdErr = .noError := by
  cases execDecSample_cases s with
  | ignored _ heq | sequence _ heq | decodeError _ _ _ heq | range _ _ _ _ _ heq | sample _ _ _ _ _ _ heq =>
    cases heq.symm.trans h; rfl
  | unwritten _ _ _ heq => cases heq.symm.trans h

/-- A command leaves CMD_ERR 0, also where it records a session error or is ignored (R36). -/
theorem exec_cmdErr {i : Instr} {s t : State} (h : exec i s = .next t) : t.cmdErr = .noError := by
  cases i with
  | encInit => cases h; rfl
  | encSample => exact execEncSample_cmdErr h
  | encFinish => exact execEncFinish_cmdErr h
  | decInit => exact execDecInit_cmdErr h
  | decSample => exact execDecSample_cmdErr h

/-- CMD_ERR after any word written to CMD (R36). -/
theorem issue_cmdErr {w : Word} {s t : State} (h : issue w s = .next t) :
    (LegalWord w → t.cmdErr = .noError) ∧ (¬LegalWord w → t.cmdErr = .illegalCommand) := by
  rw [← decode_ok_iff_legalWord]
  unfold issue at h
  cases hd : decode w with
  | ok i =>
    rw [hd] at h
    exact ⟨fun _ => exec_cmdErr h, fun hw => absurd ⟨i, rfl⟩ hw⟩
  | error e =>
    rw [hd] at h
    cases h
    exact ⟨fun ⟨_, hi⟩ => (nomatch hi), fun _ => rfl⟩

end Sys2Proof.Machine
end

section
/-!
SUPPORT. The fields of the STATUS word (10_state.md R35), and STATUS in the host's register window.
-/

namespace Sys2Proof.Machine

/-- A field above the low part of an append is a field of the high part. -/
theorem extractLsb'_above {v w n len : Nat} {hi : BitVec v} (lo : BitVec w) {x : BitVec len}
    (h : hi.extractLsb' n len = x) : (hi ++ lo).extractLsb' (n + w) len = x := by
  rw [BitVec.extractLsb'_append_eq_of_le (by omega), Nat.add_sub_cancel, h]

section Fields

variable (s : State)

@[simp] theorem status_eState : s.status.extractLsb' 0 2 = s.eState.code :=
  BitVec.extractLsb'_append_eq_right

@[simp] theorem status_dState : s.status.extractLsb' 2 2 = s.dState.code :=
  extractLsb'_above _ BitVec.extractLsb'_append_eq_right

@[simp] theorem status_eErr : s.status.extractLsb' 4 3 = s.eErr.code :=
  extractLsb'_above _ <| extractLsb'_above _ BitVec.extractLsb'_append_eq_right

@[simp] theorem status_bit7 : s.status.extractLsb' 7 1 = 0#1 :=
  extractLsb'_above _ <| extractLsb'_above _ <| extractLsb'_above _ BitVec.extractLsb'_append_eq_right

@[simp] theorem status_dErr : s.status.extractLsb' 8 3 = s.dErr.code :=
  extractLsb'_above _ <| extractLsb'_above _ <| extractLsb'_above _ <| extractLsb'_above _
    BitVec.extractLsb'_append_eq_right

@[simp] theorem status_bit11 : s.status.extractLsb' 11 1 = 0#1 :=
  extractLsb'_above _ <| extractLsb'_above _ <| extractLsb'_above _ <| extractLsb'_above _ <| extractLsb'_above _
    BitVec.extractLsb'_append_eq_right

@[simp] theorem status_cmdErr : s.status.extractLsb' 12 3 = s.cmdErr.code :=
  extractLsb'_above _ <| extractLsb'_above _ <| extractLsb'_above _ <| extractLsb'_above _ <| extractLsb'_above _ <|
    extractLsb'_above _ BitVec.extractLsb'_append_eq_right

@[simp] theorem status_bits15to31 : s.status.extractLsb' 15 17 = 0#17 :=
  extractLsb'_above _ <| extractLsb'_above _ <| extractLsb'_above _ <| extractLsb'_above _ <| extractLsb'_above _ <|
    extractLsb'_above _ <| extractLsb'_above _ BitVec.extractLsb'_eq_self

end Fields

/-- Offset 0x0C reads STATUS (R18). -/
@[simp] theorem readOffset_status (s : State) : s.readOffset 0x0C#8 = s.status := rfl

/-- A host write to an offset other than ARG and IN_LEN is ignored (R18). -/
theorem writeOffset_ignored (s : State) {off : BitVec 8} (v : Word) (harg : off ≠ argOffset) (hlen : off ≠ inLenOffset) :
    s.writeOffset off v = s := by
  rw [writeOffset_eq, if_neg harg, if_neg hlen]

/-- STATUS is 0 after reset (R35). -/
theorem status_resetWith (inCap outCap : Word) : (State.resetWith inCap outCap).status = 0#32 := by
  simp only [State.status, State.resetWith, ErrCode.code, DState.code, EState.code]
  decide

end Sys2Proof.Machine
end

section
/-!
PROOF. The statements of 10_state.md: CMD_ERR (R36) and STATUS (R35).
-/

namespace Sys2Proof.Machine

/-- Settles O10: CMD_ERR after a write to CMD is what `issue` leaves there, legal words being those that decode. -/
theorem commandWriteSetsCmdErr : Obligations.CommandWriteSetsCmdErr := by
  refine ⟨status_cmdErr, rfl, rfl, fun _ _ => rfl, fun s t w ops hnext hstep => ?_⟩
  rw [step_of_nextIsCommand hnext] at hstep
  exact issue_cmdErr hstep

/-- Settles O47, field by field; a write to STATUS is one to neither ARG nor IN_LEN. -/
theorem statusHoldsItsFields : Obligations.StatusHoldsItsFields := by
  refine ⟨fun s => ?_, rfl, rfl, rfl, status_resetWith⟩
  exact ⟨readOffset_status s, fun v => writeOffset_ignored s v (by decide) (by decide), status_eState s, status_dState s,
    status_eErr s, status_bit7 s, status_dErr s, status_bit11 s, status_cmdErr s, status_bits15to31 s⟩

end Sys2Proof.Machine
end

section
/-!
SUPPORT. Single cases of the session commands (47_commands.md R110 to R113), read off the lemmas that list all of them.
-/

namespace Sys2Proof.Machine

section Cases

variable {s : State}

/-! ### Encoder commands -/

/-- ENC_SAMPLE has no place in IDLE or CLOSED (R110). -/
theorem exec_encSample_of_outOfSequence (h : s.eState = .idle ∨ s.eState = .closed) :
    exec .encSample s = .next (s.beginCommand.raise .enc .sequenceError) := by
  cases execEncSample_cases s with
  | sequence _ heq => exact heq
  | ignored h' | range h' | overflow h' | wrote h' => simp [h'] at h

theorem exec_encFinish_of_opened (h : s.eState = .opened) :
    exec .encFinish s = .next { s.beginCommand.bwFinish with eState := .closed } := by
  simpa [exec, h] using execEncFinish_cases s

/-- A stream of no bits takes no byte of OUT (R98). -/
theorem bwFinish_of_no_bits (h : s.wPos = 0#64) : s.bwFinish = { s with outLen := 0#32 } := by
  simp [State.bwFinish, h, ceilDiv]

/-- ENC_FINISH of a session without samples gives the empty stream (R111). -/
theorem exec_encFinish_of_no_bits (h : s.eState = .opened) (hpos : s.wPos = 0#64) :
    exec .encFinish s = .next { s.beginCommand with outLen := 0#32, eState := .closed } := by
  rw [exec_encFinish_of_opened h, bwFinish_of_no_bits (s := s.beginCommand) hpos]

/-- ENC_FINISH has no place in IDLE or CLOSED (R111). -/
theorem exec_encFinish_of_outOfSequence (h : s.eState = .idle ∨ s.eState = .closed) :
    exec .encFinish s = .next (s.beginCommand.raise .enc .sequenceError) := by
  rcases h with h | h <;> simpa [exec, h] using execEncFinish_cases s

theorem exec_encFinish_of_failed (h : s.eState = .failed) : exec .encFinish s = .next s.beginCommand := by
  simpa [exec, h] using execEncFinish_cases s

/-! ### Decoder commands -/

/-- A negative count is rejected, whatever IN_LEN is (R112). -/
theorem exec_decInit_of_count_neg (h : s.arg.toInt < 0) :
    exec .decInit s = .next (s.beginCommand.decInitWrites.raise .dec .invalidSampleCount) := by
  obtain ⟨-, heq⟩ | ⟨h', -⟩ | ⟨h', -⟩ | ⟨h', -⟩ := execDecInit_cases s
  · exact heq
  all_goals omega

/-- A session of no samples is complete at once, whatever IN_LEN is (R112). -/
theorem exec_decInit_of_count_zero (h : s.arg.toInt = 0) :
    exec .decInit s = .next { s.beginCommand.decInitWrites with dState := .complete } := by
  obtain ⟨h', -⟩ | ⟨-, heq⟩ | ⟨h', -⟩ | ⟨h', -⟩ := execDecInit_cases s
  · omega
  · exact heq
  all_goals omega

/-- An input longer than IN is rejected (R112). -/
theorem exec_decInit_of_input_too_long (h : 0 < s.arg.toInt) (hlen : s.capIn.toNat < s.inLen.toNat) :
    exec .decInit s = .next (s.beginCommand.decInitWrites.raise .dec .invalidLength) := by
  obtain ⟨h', -⟩ | ⟨h', -⟩ | ⟨-, -, heq⟩ | ⟨-, h', -⟩ := execDecInit_cases s
  · omega
  · omega
  · exact heq
  · omega

/-- An input within IN starts a session over its 8 * IN_LEN bits (R112). -/
theorem exec_decInit_of_input_fits (h : 0 < s.arg.toInt) (hlen : s.inLen.toNat ≤ s.capIn.toNat) :
    exec .decInit s = .next { s.beginCommand.decInitWrites.brInit s.inLen with dState := .active } := by
  obtain ⟨h', -⟩ | ⟨h', -⟩ | ⟨-, h', -⟩ | ⟨-, -, heq⟩ := execDecInit_cases s
  · omega
  · omega
  · omega
  · exact heq

/-- DEC_SAMPLE records the error its codeword ends with (R113). -/
theorem exec_decSample_of_decodeError (h : s.dState = .active) {c : ErrCode} (hd : ngdDecode s = .raised c) :
    exec .decSample s = .next (s.beginCommand.raise .dec c) := by
  cases execDecSample_cases s with
  | decodeError _ c' hd' heq => cases hd.symm.trans hd'; exact heq
  | ignored h' | sequence h' => simp [h] at h'
  | unwritten _ _ hd' | range _ _ _ hd' | sample _ _ _ hd' => cases hd.symm.trans hd'

/-- Where not even one group is left before D_LIMIT, DEC_SAMPLE records InsufficientData (R103, R113). -/
theorem exec_decSample_of_no_group_left (h : s.dState = .active) (hshort : s.dLimit.toNat < s.rPos.toNat + 5) :
    exec .decSample s = .next (s.beginCommand.raise .dec .insufficientData) :=
  exec_decSample_of_decodeError h (ngdDecode_short s [] (readSoFar_nil s _) (by decide) hshort)

end Cases

end Sys2Proof.Machine
end

section
/-!
PROOF. The statements of 47_commands.md: ENC_INIT (R109), ENC_FINISH (R111) and DEC_INIT (R112).
-/

namespace Sys2Proof.Machine

/-- Settles O12: the state ENC_INIT answers is open with W_POS 0, so ENC_FINISH closes it with the empty stream. -/
theorem encInitOpensAnEmptySession : Obligations.EncInitOpensAnEmptySession :=
  ⟨rfl, fun _ => ⟨_, rfl, rfl, exec_encFinish_of_no_bits rfl rfl⟩⟩

/-- Settles O16, by E_STATE; the closed session it leaves has no place for an ENC_SAMPLE. -/
theorem encFinishClosesWithLength : Obligations.EncFinishClosesWithLength := by
  refine ⟨rfl, fun s => ⟨exec_encFinish_of_opened, exec_encFinish_of_outOfSequence, exec_encFinish_of_failed, ?_⟩⟩
  intro t hopen ht
  cases (exec_encFinish_of_opened hopen).symm.trans ht
  exact exec_encSample_of_outOfSequence (.inr rfl)

/-- Settles O35, by the count and IN_LEN; with IN_LEN = 0 the session it starts has R_POS and D_LIMIT 0, so no group is
left for the first DEC_SAMPLE. -/
theorem decInitStartsOrRejectsASession : Obligations.DecInitStartsOrRejectsASession := by
  refine ⟨rfl, ?_⟩
  rintro s i rfl
  refine ⟨exec_decInit_of_count_neg, exec_decInit_of_count_zero, exec_decInit_of_input_too_long,
    exec_decInit_of_input_fits, ?_⟩
  intro t hcount hlen ht
  have hfits : s.inLen.toNat ≤ s.capIn.toNat := by simp [hlen]
  cases (exec_decInit_of_input_fits hcount hfits).symm.trans ht
  exact exec_decSample_of_no_group_left rfl (by simp [hlen])

end Sys2Proof.Machine
end

section
/-!
SUPPORT. What a command leaves of a session that ignores it or that is not its own (10_state.md R39, 60_exceptions.md
R121), and what an illegal word written to CMD records (R120).
-/

namespace Sys2Proof.Machine

/-! ### An illegal word -/

/-- A word that is not legal is recorded as IllegalCommand, and no command runs (R120). -/
theorem issue_of_illegal {w : Word} (hw : ¬LegalWord w) (s : State) : issue w s = .next s.raiseIllegalCommand := by
  rw [← decode_ok_iff_legalWord] at hw
  unfold issue
  cases hd : decode w with
  | ok i => exact absurd ⟨i, hd⟩ hw
  | error e => rfl

section Sessions

variable {s t : State}

/-! ### A FAILED session ignores its commands -/

theorem exec_encSample_of_failed (h : s.eState = .failed) : exec .encSample s = .next s.beginCommand := by
  cases execEncSample_cases s with
  | ignored _ heq => exact heq
  | sequence h' | range h' | overflow h' | wrote h' => simp [h] at h'

theorem exec_decSample_of_failed (h : s.dState = .failed) : exec .decSample s = .next s.beginCommand := by
  cases execDecSample_cases s with
  | ignored _ heq => exact heq
  | sequence h' | decodeError h' | unwritten h' | range h' | sample h' => simp [h] at h'

/-! ### A command leaves the other session -/

theorem execDecInit_encView (h : execDecInit s = .next t) : encView t = encView s := by
  obtain ⟨-, heq⟩ | ⟨-, heq⟩ | ⟨-, -, heq⟩ | ⟨-, -, heq⟩ := execDecInit_cases s <;> cases heq.symm.trans h <;> rfl

theorem execDecSample_encView (h : execDecSample s = .next t) : encView t = encView s := by
  cases execDecSample_cases s with
  | ignored _ heq | sequence _ heq | decodeError _ _ _ heq | range _ _ _ _ _ heq | sample _ _ _ _ _ _ heq =>
    cases heq.symm.trans h; rfl
  | unwritten _ _ _ heq => cases heq.symm.trans h

theorem execEncSample_decRegs (h : execEncSample s = .next t) : decRegs t = decRegs s := by
  cases execEncSample_cases s with
  | ignored _ heq | sequence _ heq | range _ _ heq | overflow _ _ heq | wrote _ _ _ heq => cases heq.symm.trans h; rfl

theorem execEncFinish_decRegs (h : execEncFinish s = .next t) : decRegs t = decRegs s := by
  obtain ⟨-, heq⟩ | ⟨-, heq⟩ | ⟨-, heq⟩ := execEncFinish_cases s <;> cases heq.symm.trans h <;> rfl

/-- States with the same encoder view have the same E_STATE and E_ERR. -/
theorem eState_eErr_of_encView (h : encView t = encView s) : t.eState = s.eState ∧ t.eErr = s.eErr :=
  ⟨congrArg (·.1) h, congrArg (·.2.1) h⟩

/-- States with the same decoder registers have the same D_STATE and D_ERR. -/
theorem dState_dErr_of_decRegs (h : decRegs t = decRegs s) : t.dState = s.dState ∧ t.dErr = s.dErr :=
  ⟨congrArg (·.1) h, congrArg (·.2.1) h⟩

/-! ### A FAILED session keeps its error -/

/-- No command but ENC_INIT changes E_STATE or E_ERR of a FAILED encoder session (R121). -/
theorem exec_keeps_failed_encoder {i : Instr} (h : exec i s = .next t) (hfailed : s.eState = .failed)
    (hi : i ≠ .encInit) : t.eState = s.eState ∧ t.eErr = s.eErr := by
  cases i with
  | encInit => exact absurd rfl hi
  | encSample => cases (exec_encSample_of_failed hfailed).symm.trans h; exact ⟨rfl, rfl⟩
  | encFinish => cases (exec_encFinish_of_failed hfailed).symm.trans h; exact ⟨rfl, rfl⟩
  | decInit => exact eState_eErr_of_encView (execDecInit_encView h)
  | decSample => exact eState_eErr_of_encView (execDecSample_encView h)

/-- No command but DEC_INIT changes D_STATE or D_ERR of a FAILED decoder session (R121). -/
theorem exec_keeps_failed_decoder {i : Instr} (h : exec i s = .next t) (hfailed : s.dState = .failed)
    (hi : i ≠ .decInit) : t.dState = s.dState ∧ t.dErr = s.dErr := by
  cases i with
  | encInit => cases h; exact ⟨rfl, rfl⟩
  | encSample => exact dState_dErr_of_decRegs (execEncSample_decRegs h)
  | encFinish => exact dState_dErr_of_decRegs (execEncFinish_decRegs h)
  | decInit => exact absurd rfl hi
  | decSample => cases (exec_decSample_of_failed hfailed).symm.trans h; exact ⟨rfl, rfl⟩

end Sessions

end Sys2Proof.Machine
end

section
/-!
PROOF. The statements of 60_exceptions.md: an illegal command word (R120) and a FAILED session (R121).
-/

namespace Sys2Proof.Machine

/-- Settles O9: the step issues the word on the state without that access, where it is recorded; the bit of
IllegalCommand in ERR_LOG is 0x80. -/
theorem illegalWordRecordsAndChangesNothingElse : Obligations.IllegalWordRecordsAndChangesNothingElse := by
  intro s w ops hnext hw
  rw [step_of_nextIsCommand hnext, issue_of_illegal hw]
  rfl

/-- Settles O18: a FAILED session ignores its own commands but INIT, and the other session's commands do not reach it. -/
theorem failedSessionKeepsItsFirstError : Obligations.FailedSessionKeepsItsFirstError := by
  refine ⟨fun s h => ⟨exec_encSample_of_failed h, exec_encFinish_of_failed h⟩, fun s h => exec_decSample_of_failed h,
    fun s t i h hfailed hi => ?_, fun s t i h hfailed hi => ?_⟩
  · obtain ⟨hstate, herr⟩ := exec_keeps_failed_encoder h hfailed hi
    exact ⟨hstate.trans hfailed, herr⟩
  · obtain ⟨hstate, herr⟩ := exec_keeps_failed_decoder h hfailed hi
    exact ⟨hstate.trans hfailed, herr⟩

end Sys2Proof.Machine
end

section
/-!
SUPPORT. Command words as numbers and as bytes (30_encoding.md R56 to R58, 20_memory.md R44): decoding gives a command on
its own word only, and a word is what its byte lanes join to.
-/

namespace Sys2Proof.Machine

/-- An opcode that names a command is the opcode of that command (R57). -/
theorem eq_opcodeOf_of_decodeOpcode {opc : BitVec 8} {i : Instr} (h : decodeOpcode opc = .ok i) : opc = opcodeOf i := by
  unfold decodeOpcode at h
  split_ifs at h with h1 h2 h3 h4 h5 <;> cases h <;> assumption

/-- The number of a command word is its opcode (R57). -/
theorem encode_toNat (i : Instr) : (encode i).toNat = (opcodeOf i).toNat := by
  cases i <;> rfl

/-- Decoding undoes encoding (R58). -/
@[simp] theorem decode_encode (i : Instr) : decode (encode i) = .ok i := by
  cases i <;> rfl

/-- A word with RSV 0 is its OPC, extended by zeros (R56). -/
theorem toNat_eq_opcField_toNat {w : Word} (h : rsvField w = 0#24) : w.toNat = (opcField w).toNat := by
  have hhigh := (rsvField_eq_zero_iff w).1 h
  rw [opcField_toNat]
  omega

/-- A command is decoded from its own word only (R58). -/
theorem decode_eq_ok_iff {w : Word} {i : Instr} : decode w = .ok i ↔ w = encode i := by
  refine ⟨fun h => ?_, fun h => h ▸ decode_encode i⟩
  by_cases hrsv : rsvField w = 0#24
  · have hopc : opcField w = opcodeOf i := eq_opcodeOf_of_decodeOpcode (by simpa [decode, hrsv] using h)
    apply BitVec.eq_of_toNat_eq
    rw [toNat_eq_opcField_toNat hrsv, hopc, encode_toNat]
  · simp [decode, hrsv] at h

/-- The byte lanes of a word join to the word (R44). -/
theorem wordOfLanes_laneByte (w : Word) :
    wordOfLanes (laneByte w 0) (laneByte w 1) (laneByte w 2) (laneByte w 3) = w := by
  simp only [wordOfLanes, laneByte]
  rw [BitVec.extractLsb'_append_extractLsb'_eq_extractLsb' (by rfl),
    BitVec.extractLsb'_append_extractLsb'_eq_extractLsb' (by rfl),
    BitVec.extractLsb'_append_extractLsb'_eq_extractLsb' (by rfl)]
  exact BitVec.extractLsb'_eq_self

/-- The word in the first four bytes is decoded, and the bytes after it are left (R44). -/
theorem decodeBytes_wordLanes_append (w : Word) (rest : List Byte) :
    decodeBytes (wordLanes w ++ rest) = (decode w).map fun i => (i, rest) := by
  simp only [wordLanes, List.cons_append, List.nil_append, decodeBytes, wordOfLanes_laneByte]

/-- The bits of a word, read as a 32-bit instruction of the table, are the word. -/
@[simp] theorem tableWord_toNat (w : Word) : tableWord 32 w.toNat = w := by
  rw [tableWord, Nat.mod_eq_of_lt w.isLt, BitVec.ofNat_toNat, BitVec.setWidth_eq]

/-- The opcode table's reading of a word is its decoding. -/
theorem decodeTableWord_eq_some_iff {w : Word} {i : Instr} :
    decodeTableWord 32 w.toNat = some i ↔ decode w = .ok i := by
  have hbytes := decodeBytes_wordLanes_append w []
  rw [List.append_nil] at hbytes
  rw [decodeTableWord, if_pos le_rfl, tableWord_toNat, hbytes]
  cases decode w <;> simp [Except.map]

/-- A legal word written to CMD runs its command on the state without that access (47_commands.md R108). -/
theorem step_of_nextIsCommand_of_decode {s : State} {w : Word} {ops : List HostOp} {i : Instr}
    (h : NextIsCommand s w ops) (hd : decode w = .ok i) : step s = exec i { s with hostOps := ops } := by
  rw [step_of_nextIsCommand h, issue, hd]

end Sys2Proof.Machine
end

section
/-!
PROOF. The statements of 30_encoding.md about command words (R56 to R58, R60), and R108 that a write to CMD runs them.
-/

namespace Sys2Proof.Machine

/-- Settles O5: a command is decoded from its own word only, and the byte lanes and the opcode table read words. -/
theorem decodeInvertsEncode : Obligations.DecodeInvertsEncode := by
  refine ⟨fun i _ => decode_encode i, fun w i => decode_eq_ok_iff.1, fun i rest => ?_, fun w i => ?_⟩
  · rw [decodeBytes_wordLanes_append, decode_encode]
    rfl
  · exact decodeTableWord_eq_some_iff.trans decode_eq_ok_iff

/-- Settles O6, by the range of the opcodes. -/
theorem decodeAcceptsExactlyLegalWords : Obligations.DecodeAcceptsExactlyLegalWords :=
  decode_ok_iff_legalWord

/-- Settles O7, by evaluation of the ten words. -/
theorem listedWordsDecodeAsTheTableSays : Obligations.ListedWordsDecodeAsTheTableSays :=
  ⟨rfl, rfl, rfl, rfl, rfl, rfl, rfl, rfl, rfl, rfl⟩

/-- Settles O8: a write to CMD issues its word, and `withFetchWord` puts such a write first. -/
theorem stepRunsTheDecodedCommand : Obligations.StepRunsTheDecodedCommand := by
  refine ⟨fun s w ops i => step_of_nextIsCommand_of_decode, fun s w i hd => ?_⟩
  rw [State.withFetchWord, tableWord_toNat]
  exact step_of_nextIsCommand_of_decode (ops := s.hostOps) rfl hd

end Sys2Proof.Machine
end

section
/-!
SUPPORT. The predictor and the zigzag mapper as integer functions (41_predictor.md, 42_zigzag.md): the bit formulas are the
integer ones, those are inverse to each other, and a residual of two samples stays far below the range limit.
-/

namespace Sys2Proof.Machine

/-! ### Samples and residuals -/

/-- A sample as an integer (R8, R10). -/
theorem sample_bounds (x : Word) : -2 ^ 31 ≤ x.toInt ∧ x.toInt ≤ 2 ^ 31 - 1 := by
  have hlo := x.le_toInt
  have hhi := x.toInt_lt
  omega

/-- The residual is the exact difference, for no difference of two samples leaves 64 bits (R73). -/
@[simp] theorem predResidual_toInt (x p : Word) : (predResidual x p).toInt = x.toInt - p.toInt := by
  have hx := sample_bounds x
  have hp := sample_bounds p
  exact BitVec.toInt_ofInt_eq_self (by decide) (by omega) (by omega)

/-- A sum in the sample range is reconstructed (R75). -/
theorem predReconstruct_of_in_range {p : Word} {r : DWord} (hlo : -2 ^ 31 ≤ p.toInt + r.toInt)
    (hhi : p.toInt + r.toInt ≤ 2 ^ 31 - 1) : predReconstruct p r = .ok (BitVec.ofInt 32 (p.toInt + r.toInt)) :=
  if_neg (by omega)

/-- A sum outside the sample range raises IntegerOverflow (R75). -/
theorem predReconstruct_of_out_of_range {p : Word} {r : DWord}
    (h : p.toInt + r.toInt < -2 ^ 31 ∨ 2 ^ 31 - 1 < p.toInt + r.toInt) :
    predReconstruct p r = .raised .integerOverflow :=
  if_pos h

/-- Reconstruction undoes the residual (R76). -/
theorem predReconstruct_predResidual (x p : Word) : predReconstruct p (predResidual x p) = .ok x := by
  have hsum : p.toInt + (predResidual x p).toInt = x.toInt := by rw [predResidual_toInt]; omega
  have hx := sample_bounds x
  rw [predReconstruct_of_in_range (by omega) (by omega), hsum, BitVec.ofInt_toInt]

/-! ### The zigzag mapping in integers -/

/-- The inverse undoes the mapping (R82). -/
@[simp] theorem unzigzag_zigzag (r : Int) : unzigzag (zigzag r) = r := by
  unfold unzigzag zigzag
  split_ifs <;> omega

/-- The mapping undoes the inverse (R82). -/
@[simp] theorem zigzag_unzigzag (u : Nat) : zigzag (unzigzag u) = u := by
  unfold unzigzag zigzag
  split_ifs <;> omega

/-- Even values stand for residuals that are not negative (R82). -/
theorem zigzag_even_iff (r : Int) : zigzag r % 2 = 0 ↔ 0 ≤ r := by
  unfold zigzag
  split_ifs <;> omega

/-- A residual of smaller magnitude has a smaller value (R82). -/
theorem zigzag_lt_of_natAbs_lt {r r' : Int} (h : r.natAbs < r'.natAbs) : zigzag r < zigzag r' := by
  unfold zigzag
  split_ifs <;> omega

/-! ### The bit formulas -/

/-- The arithmetic shift by 63 spreads the sign over the word (R78). -/
theorem sshiftRight_63 (r : DWord) : r.sshiftRight 63 = if r.toInt < 0 then BitVec.allOnes 64 else 0#64 := by
  have hlo := r.le_toInt
  have hhi := r.toInt_lt
  rw [BitVec.sshiftRight_eq, Int.shiftRight_eq_div_pow]
  split_ifs with h
  · rw [show r.toInt / ((2 ^ 63 : Nat) : Int) = -1 by omega]
    rfl
  · rw [show r.toInt / ((2 ^ 63 : Nat) : Int) = 0 by omega]
    rfl

/-- The zigzag bit formula is the integer one (R78). -/
@[simp] theorem zzToUnsigned_toNat (r : DWord) : (zzToUnsigned r).toNat = zigzag r.toInt := by
  have hr := r.toInt_eq_toNat_cond
  have hlt := r.isLt
  have hshift : (r <<< 1).toNat = 2 * r.toNat % 2 ^ 64 := by
    rw [BitVec.toNat_shiftLeft, Nat.shiftLeft_eq, Nat.mul_comm, Nat.pow_one]
  rw [zzToUnsigned, sshiftRight_63, zigzag]
  by_cases h : 0 ≤ r.toInt
  · rw [if_neg (by omega), if_pos h, BitVec.xor_zero, hshift]
    split_ifs at hr <;> omega
  · rw [if_pos (by omega), if_neg h, BitVec.xor_allOnes, BitVec.toNat_not, hshift]
    split_ifs at hr <;> omega

/-- Bit 0, negated, spreads over the word (R81). -/
theorem neg_and_one (u : DWord) : -(u &&& 1#64) = if u.toNat % 2 = 0 then 0#64 else BitVec.allOnes 64 := by
  have hbit : (u &&& 1#64).toNat = u.toNat % 2 := by
    rw [BitVec.toNat_and]
    exact Nat.and_one_is_mod _
  apply BitVec.eq_of_toNat_eq
  rw [BitVec.toNat_neg, hbit]
  split_ifs with h
  · simp [h]
  · rw [show u.toNat % 2 = 1 by omega]
    rfl

/-- The inverse bit formula is the integer one (R81). -/
@[simp] theorem zzToSigned_toInt (u : DWord) : (zzToSigned u).toInt = unzigzag u.toNat := by
  have hlt := u.isLt
  have hshift : (u >>> 1).toNat = u.toNat / 2 := by
    rw [BitVec.toNat_ushiftRight, Nat.shiftRight_eq_div_pow, Nat.pow_one]
  rw [zzToSigned, neg_and_one, unzigzag]
  split_ifs with h
  · rw [BitVec.xor_zero, BitVec.toInt_eq_toNat_cond, hshift, if_pos (by omega)]
  · rw [BitVec.xor_allOnes, BitVec.toInt_eq_toNat_cond, BitVec.toNat_not, hshift, if_neg (by omega)]
    omega

/-- The inverse bit formula undoes the bit formula (R82). -/
@[simp] theorem zzToSigned_zzToUnsigned (r : DWord) : zzToSigned (zzToUnsigned r) = r :=
  BitVec.eq_of_toInt_eq (by simp)

/-- The bit formula undoes the inverse bit formula (R82). -/
@[simp] theorem zzToUnsigned_zzToSigned (u : DWord) : zzToUnsigned (zzToSigned u) = u :=
  BitVec.eq_of_toNat_eq (by simp)

/-! ### The range of the encoder's values -/

/-- The zigzag value of a residual of two samples, in integers (R73, R78). -/
theorem zzToUnsigned_predResidual (x p : Word) :
    (zzToUnsigned (predResidual x p)).toNat = zigzag (x.toInt - p.toInt) := by simp

/-- A residual of two samples has at most 33 bits, so its value is at most 2^33 - 2 (R79). -/
theorem zigzag_sample_difference_le (x p : Word) : zigzag (x.toInt - p.toInt) ≤ 2 ^ 33 - 2 := by
  have hx := sample_bounds x
  have hp := sample_bounds p
  unfold zigzag
  split_ifs <;> omega

/-- A residual against 0 is a sample, so its value is at most 2^32 - 1 (R79). -/
theorem zigzag_sample_le (x : Word) : zigzag (x.toInt - (0#32 : Word).toInt) ≤ 2 ^ 32 - 1 := by
  have hx := sample_bounds x
  have hzero : (0#32 : Word).toInt = 0 := rfl
  unfold zigzag
  split_ifs <;> omega

/-- The range check raises exactly from 2^34 on (R80). -/
theorem zzRangeCheck_raised_iff (u : DWord) : zzRangeCheck u = .raised .integerOverflow ↔ 2 ^ 34 ≤ u.toNat := by
  simp [zzRangeCheck, Config.zzLimitBits]

/-- The range check passes below 2^34 (R80). -/
theorem zzRangeCheck_of_lt {u : DWord} (h : u.toNat < 2 ^ 34) : zzRangeCheck u = .ok () :=
  if_neg (Nat.not_le.2 h)

end Sys2Proof.Machine
end

section
/-!
PROOF. The statements of 41_predictor.md and 42_zigzag.md.
-/

namespace Sys2Proof.Machine

/-- Settles O25, by the bounds of the two samples. -/
theorem residualIsTheExactDifference : Obligations.ResidualIsTheExactDifference := by
  intro x p
  have hx := sample_bounds x
  have hp := sample_bounds p
  rw [predResidual_toInt]
  refine ⟨rfl, by omega, by omega, ?_⟩
  rintro rfl
  simpa using hx

/-- Settles O26, by whether the sum is a sample. -/
theorem reconstructInvertsResidual : Obligations.ReconstructInvertsResidual := by
  refine ⟨fun p r hlo hhi => ⟨_, predReconstruct_of_in_range hlo hhi, ?_⟩,
    fun p r => predReconstruct_of_out_of_range, predReconstruct_predResidual⟩
  exact BitVec.toInt_ofInt_eq_self (by decide) hlo (by omega)

/-- Settles O27, by the sign of the residual. -/
theorem zigzagIsTheIntegerFormula : Obligations.ZigzagIsTheIntegerFormula :=
  zzToUnsigned_toNat

/-- Settles O28, by the parity of the value. -/
theorem unzigzagIsTheIntegerFormula : Obligations.UnzigzagIsTheIntegerFormula :=
  zzToSigned_toInt

/-- Settles O29, through the integer formulas. -/
theorem zigzagIsABijectionByMagnitude : Obligations.ZigzagIsABijectionByMagnitude := by
  refine ⟨zzToSigned_zzToUnsigned, zzToUnsigned_zzToSigned, fun r => ?_, fun r r' h => ?_⟩
  · rw [zzToUnsigned_toNat, zigzag_even_iff]
  · rw [zzToUnsigned_toNat, zzToUnsigned_toNat]
    exact zigzag_lt_of_natAbs_lt h

/-- Settles O30: the greatest magnitude of a residual of two samples is 2^32 - 1, and against 0 it is 2^31. -/
theorem encoderZigzagPassesTheRangeCheck : Obligations.EncoderZigzagPassesTheRangeCheck := by
  refine ⟨fun x p => ?_, zzRangeCheck_raised_iff⟩
  have hle := zigzag_sample_difference_le x p
  refine ⟨?_, zzRangeCheck_of_lt ?_, ?_⟩
  · rwa [zzToUnsigned_predResidual]
  · rw [zzToUnsigned_predResidual]
    omega
  · rintro rfl
    rw [zzToUnsigned_predResidual]
    exact zigzag_sample_le x

end Sys2Proof.Machine
end

section
/-!
SUPPORT. The codeword of a value, group by group (30_encoding.md R63 to R67), and what the decoder makes of a codeword that
stands in IN (44_nibble_decoder.md R89).
-/

namespace Sys2Proof.Machine

/-! ### The groups of a codeword -/

/-- A group as a number: its DATA, and 16 for CONT (R63). -/
theorem group_toNat (g : Group) : g.toNat = g.toNat % 16 + if g.getLsbD 4 = true then 16 else 0 := by
  revert g
  decide

/-- The DATA fields of the groups are the hexadecimal digits of their value (R65). -/
theorem getElem_toNat_mod (gs : List Group) {i : Nat} (h : i < gs.length) :
    gs[i].toNat % 16 = groupsValue gs / 16 ^ i % 16 := by
  induction gs generalizing i with
  | nil => simp at h
  | cons g gs ih =>
    rw [groupsValue]
    cases i with
    | zero =>
      rw [List.getElem_cons_zero, Nat.pow_zero, Nat.div_one]
      omega
    | succ i =>
      rw [List.getElem_cons_succ, ih (by simpa using h), Nat.pow_succ', ← Nat.div_div_eq_div_mul]
      congr 2
      omega

/-- Groups of DATA 0 at the end leave the value as it is (R67). -/
theorem groupsValue_append_zeros (gs : List Group) (m : Nat) :
    groupsValue (gs ++ List.replicate m 0x10#5) = groupsValue gs := by
  induction m with
  | zero => simp
  | succ m ih => rw [List.replicate_succ', ← List.append_assoc, groupsValue_append, ih]; simp

/-- A value has one group count. -/
theorem isGroupCount_unique {u k k' : Nat} (h : IsGroupCount u k) (h' : IsGroupCount u k') : k = k' := by
  obtain ⟨hpos, hlt, hleast⟩ := h
  obtain ⟨hpos', hlt', hleast'⟩ := h'
  exact Nat.le_antisymm (hleast k' hpos' hlt') (hleast' k hpos hlt)

section Encoded

variable {v : Nat} {gs init : List Group} {last : Group}

theorem EncodedAs.length_eq (h : EncodedAs v gs init last) : gs.length = init.length + 1 := by
  rw [h.split, List.length_append, List.length_singleton]

/-- The codeword has as many groups as R65 says. -/
theorem EncodedAs.isGroupCount (h : EncodedAs v gs init last) : IsGroupCount v gs.length := by
  rw [h.length_eq]
  refine ⟨by omega, by rw [Nat.pow_mul]; exact h.enough, fun k hk hlt => ?_⟩
  rw [Nat.pow_mul] at hlt
  rcases h.least with rfl | hle
  · exact hk
  · exact (Nat.pow_lt_pow_iff_right (by decide)).1 (hle.trans_lt hlt)

/-- CONT is 0 in the last group and in no other (R63). -/
theorem EncodedAs.cont_false_iff (h : EncodedAs v gs init last) {i : Nat} (hi : i < gs.length) :
    gs[i].getLsbD 4 = false ↔ i + 1 = gs.length := by
  have hlen := h.length_eq
  obtain ⟨rfl, hcont, hends⟩ := h
  by_cases hlt : i < init.length
  · rw [List.getElem_append_left hlt, hcont _ (List.getElem_mem hlt)]
    simp only [Bool.true_eq_false, false_iff]
    omega
  · rw [List.getElem_append_right (by omega)]
    simp only [List.getElem_singleton, hends, true_iff]
    omega

/-- Each group is the one R65 gives for its place. -/
theorem EncodedAs.getElem_toNat (h : EncodedAs v gs init last) {i : Nat} (hi : i < gs.length) :
    gs[i].toNat = codewordGroup v gs.length i := by
  have hcont : gs[i].getLsbD 4 = true ↔ i + 1 < gs.length := by
    rw [← Bool.not_eq_false, h.cont_false_iff hi]
    omega
  rw [group_toNat, getElem_toNat_mod gs hi, h.value, codewordGroup, Nat.pow_mul, if_congr hcont rfl rfl]

/-- The last DATA of a codeword of more than one group is not 0, for the groups before it hold less than the value (R87). -/
theorem EncodedAs.last_data_ne_zero (h : EncodedAs v gs init last) (hlong : 1 < gs.length) : last.toNat % 16 ≠ 0 := by
  intro hzero
  have hlen := h.length_eq
  have hvalue : groupsValue init = v := by rw [← h.value, h.split, groupsValue_append, hzero]; simp
  have hlt := groupsValue_lt init
  rcases h.least with rfl | hle
  · simp at hlen
    omega
  · omega

end Encoded

/-- The length of the group list of a value is its group count (R84). -/
theorem ngeGroups_isGroupCount (u : DWord) : IsGroupCount u.toNat (ngeGroups u).length := by
  obtain ⟨init, last, h, -⟩ := ngeGroups_spec u
  exact h.isGroupCount

/-- A value below 16^n takes at most n groups (R65). -/
theorem ngeGroups_length_le {u : DWord} {n : Nat} (hn : 1 ≤ n) (h : u.toNat < 2 ^ (4 * n)) : (ngeGroups u).length ≤ n := by
  obtain ⟨-, -, hleast⟩ := ngeGroups_isGroupCount u
  exact hleast n hn h

/-- The group list of a value, group by group (R65, R84). -/
theorem ngeGroups_getElem_toNat (u : DWord) {i : Nat} (h : i < (ngeGroups u).length) :
    (ngeGroups u)[i].toNat = codewordGroup u.toNat (ngeGroups u).length i := by
  obtain ⟨init, last, henc, -⟩ := ngeGroups_spec u
  exact henc.getElem_toNat h

/-! ### A codeword that stands in IN -/

section Decode

variable {s : State} {gs : List Group}

/-- A whole codeword that stands at R_POS, fits and is written is decoded to its value (R89). -/
theorem ngdDecode_of_streamHolds {g : Group} (hcont : AllContinue gs) (hg : g.getLsbD 4 = false) (hlen : gs.length ≤ 8)
    (hholds : StreamHolds s.inByte s.rPos.toNat (gs ++ [g]))
    (hfit : s.rPos.toNat + 5 * (gs.length + 1) ≤ s.dLimit.toNat)
    (hw : BitsWritten s s.rPos.toNat (5 * (gs.length + 1))) :
    ∃ u : DWord, u.toNat = groupsValue (gs ++ [g]) ∧ ngdDecode s = .ok (u, s.rPos.toNat + 5 * (gs.length + 1)) := by
  obtain ⟨hinit, hlast⟩ := streamHolds_init hholds
  have hread : ReadSoFar s s.rPos.toNat gs :=
    ⟨hinit, hcont, .inr (by omega), bitsWritten_mono hw (by omega) (by omega)⟩
  exact ngdDecode_codeword s gs g hread (by omega) hfit (bitsWritten_mono hw (by omega) (by omega)) hlast hg

/-- The codeword of a value decodes to the value (R90). -/
theorem ngdDecode_ngeGroups {u : DWord} (hu : u.toNat < 2 ^ 36)
    (hholds : StreamHolds s.inByte s.rPos.toNat (ngeGroups u))
    (hfit : s.rPos.toNat + 5 * (ngeGroups u).length ≤ s.dLimit.toNat)
    (hw : BitsWritten s s.rPos.toNat (5 * (ngeGroups u).length)) :
    ngdDecode s = .ok (u, s.rPos.toNat + 5 * (ngeGroups u).length) := by
  have hnine : (ngeGroups u).length ≤ 9 := ngeGroups_length_le (by decide) hu
  obtain ⟨init, last, henc, -⟩ := ngeGroups_spec u
  rw [henc.length_eq] at hnine hfit hw ⊢
  rw [henc.split] at hholds
  obtain ⟨u', hvalue, hdecode⟩ := ngdDecode_of_streamHolds henc.cont henc.ends (by omega) hholds hfit hw
  have : u' = u := BitVec.eq_of_toNat_eq (by rw [hvalue, ← henc.split, henc.value])
  rwa [this] at hdecode

end Decode

end Sys2Proof.Machine
end

section
/-!
PROOF. The statements of 43_nibble_encoder.md and 44_nibble_decoder.md about codewords (R65, R67, R84, R87, R90).
-/

namespace Sys2Proof.Machine

/-- Settles O31: the count is the length of the group list, and the DATA fields are the digits of the value. -/
theorem groupsAreTheCodewordOfTheValue : Obligations.GroupsAreTheCodewordOfTheValue := by
  intro u k hk
  obtain rfl := isGroupCount_unique hk (ngeGroups_isGroupCount u)
  exact ⟨rfl, fun i h => ngeGroups_getElem_toNat u h⟩

/-- Settles O32, from the shape `init ++ [last]` of the group list. -/
theorem codewordIsCanonicalAndSelfTerminating : Obligations.CodewordIsCanonicalAndSelfTerminating := by
  intro u
  obtain ⟨init, last, henc, -⟩ := ngeGroups_spec u
  refine ⟨?_, ngeGroups_length_le (n := 9) (by decide), fun i hi => henc.cont_false_iff hi, fun hlong => ?_⟩
  · rw [henc.split]
    simp
  · simpa [henc.split] using henc.last_data_ne_zero hlong

/-- Settles O33. -/
theorem decoderReadsBackTheCodeword : Obligations.DecoderReadsBackTheCodeword :=
  fun _ _ hu hholds hfit hw => ngdDecode_ngeGroups hu hholds hfit hw

/-- Settles O34: the groups of DATA 0 continue, but for the last, and add nothing to the value. -/
theorem nonCanonicalCodewordDecodes : Obligations.NonCanonicalCodewordDecodes := by
  intro s gs m hcont hlen hholds hfit hw
  have hcont' : AllContinue (gs ++ List.replicate m 0x10#5) := by
    intro g hg
    rcases List.mem_append.1 hg with hg | hg
    · exact hcont g hg
    · rw [List.eq_of_mem_replicate hg]
      rfl
  have hlen' : (gs ++ List.replicate m 0x10#5).length = gs.length + m := by simp
  rw [← hlen'] at hfit hw ⊢
  obtain ⟨u, hvalue, hdecode⟩ := ngdDecode_of_streamHolds hcont' (by rfl) (by omega) hholds hfit hw
  refine ⟨u, hdecode, ?_⟩
  rw [hvalue, groupsValue_append, groupsValue_append_zeros]
  simp

end Sys2Proof.Machine
end

section
/-!
SUPPORT. The error fields (10_state.md R36, R37; 60_exceptions.md R119, R120): what an access leaves in ERR_LOG and in the
three error fields.
-/

namespace Sys2Proof.Machine

/-- The mask of a code has the bit of the code and no other (R37). -/
@[simp] theorem logBit_getLsbD (c : ErrCode) (n : Nat) : c.logBit.getLsbD n = decide (n = c.code.toNat) := by
  have hcode : c.code.toNat < 8 := c.code.isLt
  rw [ErrCode.logBit, BitVec.getLsbD_shiftLeft, BitVec.getLsbD_one, Bool.eq_iff_iff]
  simp
  omega

/-- The mask of an error lies within bits 7:1 (R37). -/
theorem logBit_and_reserved {c : ErrCode} (h : c ≠ .noError) : c.logBit &&& 0xFFFFFF01#32 = 0#32 := by
  cases c with
  | noError => exact absurd rfl h
  | _ => rfl

/-- NGD_DECODE raises no error but these (44_nibble_decoder.md R89). -/
theorem ngdDecode_raised_kinds {s : State} {c : ErrCode} (h : ngdDecode s = .raised c) :
    c = .integerOverflow ∨ c = .insufficientData := by
  obtain ⟨gs, -, hend⟩ := ngdDecode_cases s
  cases hend with
  | tenth _ heq => cases heq.symm.trans h; exact .inl rfl
  | short _ _ heq => cases heq.symm.trans h; exact .inr rfl
  | last _ _ _ _ _ _ _ _ heq => cases heq.symm.trans h
  | unwritten _ _ _ _ _ heq => cases heq.symm.trans h

/-- From `s` to `t` the error history loses no bit, its reserved bits stay, and a code newly held has its bit (R37). -/
structure ErrorsLogged (s t : State) : Prop where
  kept : ∀ n, s.errLog.getLsbD n = true → t.errLog.getLsbD n = true
  reserved : t.errLog &&& 0xFFFFFF01#32 = s.errLog &&& 0xFFFFFF01#32
  enc : t.eErr ≠ s.eErr → t.eErr ≠ .noError → t.errLog.getLsbD t.eErr.code.toNat = true
  dec : t.dErr ≠ s.dErr → t.dErr ≠ .noError → t.errLog.getLsbD t.dErr.code.toNat = true
  cmd : t.cmdErr ≠ s.cmdErr → t.cmdErr ≠ .noError → t.errLog.getLsbD t.cmdErr.code.toNat = true

section History

variable {s t : State}

/-- The history keeps every bit, as one equation. -/
theorem ErrorsLogged.errLog_and (h : ErrorsLogged s t) : t.errLog &&& s.errLog = s.errLog := by
  apply BitVec.eq_of_getLsbD_eq
  intro n _
  rw [BitVec.getLsbD_and]
  cases hn : s.errLog.getLsbD n with
  | false => rw [Bool.and_false]
  | true => rw [h.kept n hn, Bool.and_true]

/-- Where nothing is recorded and each error field stays or is cleared. -/
theorem errorsLogged_of_errLog_eq (hlog : t.errLog = s.errLog) (henc : t.eErr = s.eErr ∨ t.eErr = .noError)
    (hdec : t.dErr = s.dErr ∨ t.dErr = .noError) (hcmd : t.cmdErr = s.cmdErr ∨ t.cmdErr = .noError) :
    ErrorsLogged s t where
  kept n hn := hlog ▸ hn
  reserved := by rw [hlog]
  enc h h' := absurd henc (by simp [h, h'])
  dec h h' := absurd hdec (by simp [h, h'])
  cmd h h' := absurd hcmd (by simp [h, h'])

/-- Where one error is recorded, and each error field stays, is cleared or holds that error. -/
theorem errorsLogged_of_logged {c : ErrCode} (hc : c ≠ .noError) (hlog : t.errLog = s.errLog ||| c.logBit)
    (henc : t.eErr = s.eErr ∨ t.eErr = .noError ∨ t.eErr = c) (hdec : t.dErr = s.dErr ∨ t.dErr = .noError ∨ t.dErr = c)
    (hcmd : t.cmdErr = s.cmdErr ∨ t.cmdErr = .noError ∨ t.cmdErr = c) : ErrorsLogged s t where
  kept n hn := by simp [hlog, hn]
  reserved := by
    have hmask : (s.errLog ||| c.logBit) &&& 0xFFFFFF01#32 = s.errLog &&& 0xFFFFFF01#32 ||| c.logBit &&& 0xFFFFFF01#32 :=
      BitVec.and_or_distrib_right
    rw [hlog, hmask, logBit_and_reserved hc, BitVec.or_zero]
  enc h h' := by simp [hlog, (henc.resolve_left h).resolve_left h']
  dec h h' := by simp [hlog, (hdec.resolve_left h).resolve_left h']
  cmd h h' := by simp [hlog, (hcmd.resolve_left h).resolve_left h']

/-! ### Commands -/

theorem execEncSample_errorsLogged (h : execEncSample s = .next t) : ErrorsLogged s t := by
  cases execEncSample_cases s with
  | ignored _ heq | wrote _ _ _ heq =>
    cases heq.symm.trans h
    exact errorsLogged_of_errLog_eq rfl (.inl rfl) (.inl rfl) (.inr rfl)
  | sequence _ heq | range _ _ heq | overflow _ _ heq =>
    cases heq.symm.trans h
    exact errorsLogged_of_logged (by decide) rfl (.inr (.inr rfl)) (.inl rfl) (.inr (.inl rfl))

theorem execEncFinish_errorsLogged (h : execEncFinish s = .next t) : ErrorsLogged s t := by
  obtain ⟨-, heq⟩ | ⟨-, heq⟩ | ⟨-, heq⟩ := execEncFinish_cases s <;> cases heq.symm.trans h
  · exact errorsLogged_of_errLog_eq rfl (.inl rfl) (.inl rfl) (.inr rfl)
  · exact errorsLogged_of_logged (by decide) rfl (.inr (.inr rfl)) (.inl rfl) (.inr (.inl rfl))
  · exact errorsLogged_of_errLog_eq rfl (.inl rfl) (.inl rfl) (.inr rfl)

theorem execDecInit_errorsLogged (h : execDecInit s = .next t) : ErrorsLogged s t := by
  obtain ⟨-, heq⟩ | ⟨-, heq⟩ | ⟨-, -, heq⟩ | ⟨-, -, heq⟩ := execDecInit_cases s <;> cases heq.symm.trans h
  · exact errorsLogged_of_logged (by decide) rfl (.inl rfl) (.inr (.inr rfl)) (.inr (.inl rfl))
  · exact errorsLogged_of_errLog_eq rfl (.inl rfl) (.inr rfl) (.inr rfl)
  · exact errorsLogged_of_logged (by decide) rfl (.inl rfl) (.inr (.inr rfl)) (.inr (.inl rfl))
  · exact errorsLogged_of_errLog_eq rfl (.inl rfl) (.inr rfl) (.inr rfl)

theorem execDecSample_errorsLogged (h : execDecSample s = .next t) : ErrorsLogged s t := by
  cases execDecSample_cases s with
  | ignored _ heq | sample _ _ _ _ _ _ heq =>
    cases heq.symm.trans h
    exact errorsLogged_of_errLog_eq rfl (.inl rfl) (.inl rfl) (.inr rfl)
  | sequence _ heq | range _ _ _ _ _ heq =>
    cases heq.symm.trans h
    exact errorsLogged_of_logged (by decide) rfl (.inl rfl) (.inr (.inr rfl)) (.inr (.inl rfl))
  | decodeError _ c hd heq =>
    have hc : c ≠ .noError := by rcases ngdDecode_raised_kinds hd with rfl | rfl <;> decide
    cases heq.symm.trans h
    exact errorsLogged_of_logged hc rfl (.inl rfl) (.inr (.inr rfl)) (.inr (.inl rfl))
  | unwritten _ _ _ heq => cases heq.symm.trans h

/-- What every command does to the error history and the error fields (R36, R37). -/
theorem exec_errorsLogged {i : Instr} (h : exec i s = .next t) : ErrorsLogged s t := by
  cases i with
  | encInit => cases h; exact errorsLogged_of_errLog_eq rfl (.inr rfl) (.inl rfl) (.inr rfl)
  | encSample => exact execEncSample_errorsLogged h
  | encFinish => exact execEncFinish_errorsLogged h
  | decInit => exact execDecInit_errorsLogged h
  | decSample => exact execDecSample_errorsLogged h

/-! ### Steps -/

/-- What every step but reset does to the error history and the error fields (R37). -/
theorem step_errorsLogged (h : step s = .next t) (hreset : ∀ ops, s.hostOps ≠ .reset :: ops) : ErrorsLogged s t := by
  cases step_cases h with
  | command w ops i _ _ heq =>
    obtain ⟨hkept, hreserved, henc, hdec, hcmd⟩ := exec_errorsLogged heq
    exact ⟨hkept, hreserved, henc, hdec, hcmd⟩
  | illegal w ops e _ _ heq =>
    subst heq
    exact errorsLogged_of_logged (c := .illegalCommand) (by decide) rfl (.inl rfl) (.inl rfl) (.inr (.inr rfl))
  | write off v ops _ _ heq =>
    rw [writeOffset_eq] at heq
    subst heq
    exact errorsLogged_of_errLog_eq rfl (.inl rfl) (.inl rfl) (.inl rfl)
  | idle _ heq | read _ _ _ _ heq | input _ _ _ _ _ heq =>
    subst heq
    exact errorsLogged_of_errLog_eq rfl (.inl rfl) (.inl rfl) (.inl rfl)
  | reset ops hops => exact absurd hops (hreset ops)

end History

end Sys2Proof.Machine
end

section
/-!
PROOF. The statements of 60_exceptions.md and 10_state.md about recording an error (R119) and the error history (R37).
-/

namespace Sys2Proof.Machine

/-- Settles O11: the two updates are those the statement writes out. -/
theorem raiseRecordsErrorAndNothingElse : Obligations.RaiseRecordsErrorAndNothingElse :=
  fun _ _ => ⟨rfl, rfl⟩

/-- Settles O55, by the host's next access. -/
theorem errorHistoryIsSticky : Obligations.ErrorHistoryIsSticky := by
  intro s t hstep hreset
  obtain ⟨hkept, -, henc, hdec, hcmd⟩ := step_errorsLogged hstep hreset
  exact ⟨hkept, henc, hdec, hcmd⟩

end Sys2Proof.Machine
end

section
/-!
SUPPORT. ENC_SAMPLE and ENC_FINISH in an open session (47_commands.md R110, R111): the count and the room of a codeword,
what is written, and what the session's view decides.
-/

namespace Sys2Proof.Machine

section Encoder

variable {s t : State}

/-! ### The codeword of a sample -/

/-- The value ENC_SAMPLE encodes, in integers (R73, R78). -/
@[simp] theorem sampleZigzag_toNat (s : State) : (sampleZigzag s).toNat = zigzag (s.arg.toInt - s.ePrev.toInt) :=
  zzToUnsigned_predResidual s.arg s.ePrev

/-- The value of a sample passes the range check (R79). -/
theorem sampleZigzag_lt (s : State) : (sampleZigzag s).toNat < 2 ^ 34 := by
  have hle := zigzag_sample_difference_le s.arg s.ePrev
  rw [sampleZigzag_toNat]
  omega

/-- The group count of the sample's codeword (R65). -/
def sampleCount (s : State) : Nat := (ngeGroups (sampleZigzag s)).length

theorem sampleCount_isGroupCount (s : State) : IsGroupCount (zigzag (s.arg.toInt - s.ePrev.toInt)) (sampleCount s) := by
  rw [← sampleZigzag_toNat]
  exact ngeGroups_isGroupCount _

theorem sampleCount_pos (s : State) : 1 ≤ sampleCount s := (sampleCount_isGroupCount s).1

/-- A sample takes at most 9 groups (R69). -/
theorem sampleCount_le_nine (s : State) : sampleCount s ≤ 9 :=
  ngeGroups_length_le (by decide) ((sampleZigzag_lt s).trans (by decide))

/-- A sample coded against 0 takes at most 8 groups (R69). -/
theorem sampleCount_le_eight (h : s.ePrev = 0#32) : sampleCount s ≤ 8 := by
  have hle := zigzag_sample_le s.arg
  refine ngeGroups_length_le (by decide) ?_
  rw [sampleZigzag_toNat, h]
  omega

/-- The room the codeword of the sample needs in OUT (R96). -/
def HasRoom (s : State) : Prop := ceilDiv (s.wPos.toNat + 5 * sampleCount s) 8 ≤ s.capOut.toNat

/-! ### ENC_SAMPLE in an open session -/

/-- The state ENC_SAMPLE leaves where it writes (R110). -/
def State.sampleWritten (s : State) : State :=
  { s.beginCommand with wPos := (sampleWriter s).pos, outMem := (sampleWriter s).out, ePrev := s.arg }

/-- In an open session ENC_SAMPLE raises OutputOverflow or writes, by the room there is; the range check never raises. -/
theorem execEncSample_of_opened (h : s.eState = .opened) :
    (¬HasRoom s ∧ execEncSample s = .next (s.beginCommand.raise .enc .outputOverflow)) ∨
    (HasRoom s ∧ execEncSample s = .next s.sampleWritten) := by
  cases execEncSample_cases s with
  | range _ hu => exact absurd (sampleZigzag_lt s) (by omega)
  | overflow _ hc heq => exact .inl ⟨Nat.not_le.2 hc, heq⟩
  | wrote _ _ hc heq => exact .inr ⟨hc, heq⟩
  | ignored h' | sequence h' => simp [h] at h'

theorem exec_encSample_of_no_room (h : s.eState = .opened) (hroom : ¬HasRoom s) :
    exec .encSample s = .next (s.beginCommand.raise .enc .outputOverflow) := by
  obtain ⟨-, heq⟩ | ⟨hroom', -⟩ := execEncSample_of_opened h
  · exact heq
  · exact absurd hroom' hroom

theorem exec_encSample_of_room (h : s.eState = .opened) (hroom : HasRoom s) :
    exec .encSample s = .next s.sampleWritten := by
  obtain ⟨hroom', -⟩ | ⟨-, heq⟩ := execEncSample_of_opened h
  · exact absurd hroom hroom'
  · exact heq

/-- An open session that ENC_SAMPLE leaves open had room, and the codeword is written. -/
theorem eq_sampleWritten_of_opened (h : s.eState = .opened) (hexec : exec .encSample s = .next t)
    (ht : t.eState = .opened) : HasRoom s ∧ t = s.sampleWritten := by
  obtain ⟨-, heq⟩ | ⟨hroom, heq⟩ := execEncSample_of_opened h <;> cases heq.symm.trans hexec
  · simp at ht
  · exact ⟨hroom, rfl⟩

/-! ### What the writing does -/

theorem sampleWriter_pos_toNat (h : HasRoom s) : (sampleWriter s).pos.toNat = s.wPos.toNat + 5 * sampleCount s := by
  rw [(sampleWriter_spec s h).pos, flatMap_groupBits_length]
  rfl

/-- The groups of the codeword stand at the old W_POS (R64, R110). -/
theorem sampleWriter_holds (h : HasRoom s) :
    StreamHolds (outByteOf (sampleWriter s).out) s.wPos.toNat (ngeGroups (sampleZigzag s)) := by
  intro i hi j hj
  have hlt : 5 * i + j < ((ngeGroups (sampleZigzag s)).flatMap groupBits).length := by
    rw [flatMap_groupBits_length]
    omega
  have hbit := (sampleWriter_spec s h).bits (5 * i + j) hlt
  rwa [← Nat.add_assoc, flatMap_groupBits_getElem _ hi hj] at hbit

/-- The bits of the stream before the codeword stay (R94). -/
theorem sampleWriter_below (h : HasRoom s) {q : Nat} (hq : q < s.wPos.toNat) :
    streamBit (outByteOf (sampleWriter s).out) q = streamBit s.outByte q :=
  (sampleWriter_spec s h).below q hq

/-- The bytes the codeword does not reach stay (R42). -/
theorem sampleWriter_read (h : HasRoom s) {j : Nat}
    (hj : j < s.wPos.toNat / 8 ∨ s.wPos.toNat + 5 * sampleCount s ≤ 8 * j) :
    (sampleWriter s).out.read j = s.outMem.read j :=
  (sampleWriter_spec s h).kept j (by rw [flatMap_groupBits_length]; exact hj)

/-- The bits of the stream after the codeword stay, but for those of a byte the codeword begins, which are 0 (R94). -/
theorem sampleWriter_above (h : HasRoom s) {q : Nat} (hq : s.wPos.toNat + 5 * sampleCount s ≤ q) :
    streamBit (outByteOf (sampleWriter s).out) q =
      if s.wPos.toNat ≤ 8 * (q / 8) ∧ 8 * (q / 8) < s.wPos.toNat + 5 * sampleCount s then false
      else streamBit s.outByte q := by
  have habove := (sampleWriter_spec s h).above q
  rw [flatMap_groupBits_length] at habove
  exact habove hq

/-- An entry of OUT after the codeword is an old one or lies below the new W_POS (R42). -/
theorem sampleWriter_mem (h : HasRoom s) {c : Host.Cell} (hc : c ∈ (sampleWriter s).out) :
    c ∈ s.outMem ∨ 8 * c.1 < s.wPos.toNat + 5 * sampleCount s := by
  have hmem := (sampleWriter_spec s h).mem c hc
  rwa [flatMap_groupBits_length] at hmem

/-! ### What decides the outcome -/

/-- States with the same encoder view encode the same value, in the same room, to the same effect on the view. -/
theorem exec_encSample_congr {s' : State} (h : encView s = encView s') :
    ∃ t t', exec .encSample s = .next t ∧ exec .encSample s' = .next t' ∧ encView t = encView t' := by
  simp only [encView, Prod.mk.injEq] at h
  obtain ⟨hstate, herr, hprev, hpos, hlen, hout, harg, hcap⟩ := h
  have hzigzag : sampleZigzag s = sampleZigzag s' := by rw [sampleZigzag, sampleZigzag, harg, hprev]
  have hcount : sampleCount s = sampleCount s' := by rw [sampleCount, sampleCount, hzigzag]
  have hwriter : sampleWriter s = sampleWriter s' := by rw [sampleWriter, sampleWriter, hpos, hout, hzigzag]
  have hroom : HasRoom s ↔ HasRoom s' := by rw [HasRoom, HasRoom, hpos, hcount, hcap]
  have outOfSequence (hs : s.eState = .idle ∨ s.eState = .closed) :
      ∃ t t', exec .encSample s = .next t ∧ exec .encSample s' = .next t' ∧ encView t = encView t' :=
    ⟨_, _, exec_encSample_of_outOfSequence hs, exec_encSample_of_outOfSequence (hstate ▸ hs), by simp [encView, *]⟩
  cases hs : s.eState with
  | idle => exact outOfSequence (.inl hs)
  | closed => exact outOfSequence (.inr hs)
  | failed =>
    exact ⟨_, _, exec_encSample_of_failed hs, exec_encSample_of_failed (hstate ▸ hs), by simp [encView, *]⟩
  | opened =>
    by_cases hr : HasRoom s
    · exact ⟨_, _, exec_encSample_of_room hs hr, exec_encSample_of_room (hstate ▸ hs) (hroom.1 hr),
        by simp [encView, State.sampleWritten, *]⟩
    · exact ⟨_, _, exec_encSample_of_no_room hs hr, exec_encSample_of_no_room (hstate ▸ hs) (mt hroom.2 hr),
        by simp [encView, *]⟩

/-- States with the same encoder view finish alike. -/
theorem exec_encFinish_congr {s' : State} (h : encView s = encView s') :
    ∃ t t', exec .encFinish s = .next t ∧ exec .encFinish s' = .next t' ∧ encView t = encView t' := by
  simp only [encView, Prod.mk.injEq] at h
  obtain ⟨hstate, herr, hprev, hpos, hlen, hout, harg, hcap⟩ := h
  have outOfSequence (hs : s.eState = .idle ∨ s.eState = .closed) :
      ∃ t t', exec .encFinish s = .next t ∧ exec .encFinish s' = .next t' ∧ encView t = encView t' :=
    ⟨_, _, exec_encFinish_of_outOfSequence hs, exec_encFinish_of_outOfSequence (hstate ▸ hs), by simp [encView, *]⟩
  cases hs : s.eState with
  | idle => exact outOfSequence (.inl hs)
  | closed => exact outOfSequence (.inr hs)
  | failed =>
    exact ⟨_, _, exec_encFinish_of_failed hs, exec_encFinish_of_failed (hstate ▸ hs), by simp [encView, *]⟩
  | opened =>
    exact ⟨_, _, exec_encFinish_of_opened hs, exec_encFinish_of_opened (hstate ▸ hs), by simp [encView, *]⟩

/-! ### The frame of the encoder commands -/

/-- The fields an encoder command may write; the others stay (R39). -/
def EncFrame (s t : State) : Prop :=
  t = { s with
    cmdErr := .noError, eState := t.eState, eErr := t.eErr, ePrev := t.ePrev, wPos := t.wPos, outLen := t.outLen,
    outMem := t.outMem, errLog := t.errLog }

theorem execEncSample_frame (h : execEncSample s = .next t) : EncFrame s t ∧ t.outLen = s.outLen := by
  cases execEncSample_cases s with
  | ignored _ heq | sequence _ heq | range _ _ heq | overflow _ _ heq | wrote _ _ _ heq =>
    cases heq.symm.trans h
    exact ⟨rfl, rfl⟩

theorem execEncFinish_frame (h : execEncFinish s = .next t) :
    EncFrame s t ∧ t.outMem = s.outMem ∧ t.ePrev = s.ePrev ∧ t.wPos = s.wPos := by
  obtain ⟨-, heq⟩ | ⟨-, heq⟩ | ⟨-, heq⟩ := execEncFinish_cases s <;> cases heq.symm.trans h <;>
    exact ⟨rfl, rfl, rfl, rfl⟩

/-- A sound cursor needs no more bytes than OUT has (R98). -/
theorem ceilDiv_wPos_le (h : EncInv s) : ceilDiv s.wPos.toNat 8 ≤ s.capOut.toNat := by
  have hcursor := h.cursorInOut
  unfold ceilDiv
  omega

/-- In a sound state OUT_LEN takes the length of the stream without wrapping (R98). -/
theorem finishedLength_toNat (h : EncInv s) : (BitVec.ofNat 32 (ceilDiv s.wPos.toNat 8)).toNat = ceilDiv s.wPos.toNat 8 := by
  have hle := ceilDiv_wPos_le h
  have hcap := s.capOut.isLt
  rw [BitVec.toNat_ofNat, Nat.mod_eq_of_lt (by omega)]

/-- An open session in a sound state holds no error (R23). -/
theorem eErr_of_opened (h : EncInv s) (hs : s.eState = .opened) : s.eErr = .noError := by
  by_contra herr
  simpa [hs] using h.errIffFailed.1 herr

end Encoder

end Sys2Proof.Machine
end

section
/-!
PROOF. The statements of 47_commands.md about ENC_SAMPLE (R110) and the encoder session (R115), of 45_bit_writer.md, and of
10_state.md about the encoder's frame (R39).
-/

namespace Sys2Proof.Machine

/-- Settles O13: the group count is that of the value, and the writer puts its groups at W_POS. -/
theorem encSampleWritesTheCodeword : Obligations.EncSampleWritesTheCodeword := by
  rintro s u k hopen rfl hk hfits
  obtain rfl := isGroupCount_unique hk (sampleCount_isGroupCount s)
  have hroom : HasRoom s := hfits
  have hpos := sampleWriter_pos_toNat hroom
  refine ⟨(sampleWriter s).out, ?_, (room_of_capacity hfits).2, fun i hi j hj => ?_,
    fun q => sampleWriter_below hroom, fun j hj => sampleWriter_read hroom (by omega)⟩
  · rw [exec_encSample_of_room hopen hroom, ← hpos, BitVec.ofNat_toNat, BitVec.setWidth_eq]
    rfl
  · rw [sampleWriter_holds hroom i hi j hj, ← sampleZigzag_toNat, sampleCount, ← ngeGroups_getElem_toNat _ hi,
      BitVec.testBit_toNat]

/-- Settles O14; the bit of OutputOverflow in ERR_LOG is 0x10. -/
theorem encSampleWithoutRoomRaisesOutputOverflow : Obligations.EncSampleWithoutRoomRaisesOutputOverflow := by
  intro s k hopen hk hfull
  obtain rfl := isGroupCount_unique hk (sampleCount_isGroupCount s)
  exact exec_encSample_of_no_room hopen (Nat.not_le.2 hfull)

/-- Settles O15; the bit of SequenceError in ERR_LOG is 0x20. -/
theorem encSampleOutOfSequenceRaises : Obligations.EncSampleOutOfSequenceRaises :=
  fun _ => exec_encSample_of_outOfSequence

/-- Settles O17: the invariant keeps OUT_LEN from wrapping and the partial byte clean. -/
theorem finishedStreamIsZeroPadded : Obligations.FinishedStreamIsZeroPadded := by
  intro s t hinv hopen ht
  cases (exec_encFinish_of_opened hopen).symm.trans ht
  have hlen := finishedLength_toNat hinv.enc
  refine ⟨hlen, ?_, fun q hq hq' => hinv.enc.partialClean q hq ?_⟩
  · rw [compressResult, if_pos ⟨rfl, by simpa using eErr_of_opened hinv.enc hopen⟩]
  · rwa [← hlen]

/-- Settles O19, by how ENC_SAMPLE and ENC_FINISH end. -/
theorem encoderStateMachine : Obligations.EncoderStateMachine := by
  refine fun s => ⟨⟨_, rfl, rfl⟩, ?_, ?_⟩
  · cases execEncSample_cases s with
    | ignored h heq => exact ⟨_, heq, by simp [h]⟩
    | sequence h heq => exact ⟨_, heq, by rcases h with h | h <;> simp [h]⟩
    | range h hu => exact absurd (sampleZigzag_lt s) (by omega)
    | overflow h _ heq => exact ⟨_, heq, by simp [h]⟩
    | wrote h _ _ heq => exact ⟨_, heq, by simp [h]⟩
  · obtain ⟨h, heq⟩ | ⟨h, heq⟩ | ⟨h, heq⟩ := execEncFinish_cases s
    · exact ⟨_, heq, by simp [h]⟩
    · exact ⟨_, heq, by rcases h with h | h <;> simp [h]⟩
    · exact ⟨_, heq, by simp [h]⟩

/-- Settles O20, command by command. -/
theorem encoderCommandsFrame : Obligations.EncoderCommandsFrame := by
  rintro s t i hi h
  have hlog := (exec_errorsLogged h).errLog_and
  rcases hi with rfl | rfl | rfl
  · cases h
    exact ⟨rfl, fun _ => rfl, nofun, nofun, hlog⟩
  · obtain ⟨hrest, hlen⟩ := execEncSample_frame h
    exact ⟨hrest, fun hne => absurd rfl hne, nofun, fun _ => hlen, hlog⟩
  · obtain ⟨hrest, hout, hprev, hpos⟩ := execEncFinish_frame h
    exact ⟨hrest, fun _ => hout, fun _ => ⟨hprev, hpos⟩, nofun, hlog⟩

/-- Settles O21: OUT changes only where a codeword is written, and there only up to the new W_POS. -/
theorem encSampleTouchesOnlyItsBytes : Obligations.EncSampleTouchesOnlyItsBytes := by
  intro s t h j hj
  cases execEncSample_cases s with
  | ignored _ heq | sequence _ heq | range _ _ heq | overflow _ _ heq => cases heq.symm.trans h; rfl
  | wrote _ _ hc heq =>
    cases heq.symm.trans h
    have hpos := sampleWriter_pos_toNat hc
    refine sampleWriter_read hc ?_
    simp only [hpos, ceilDiv] at hj
    omega

/-- Settles O22, by the count of the codeword. -/
theorem encodedSampleCostsOneToNineGroups : Obligations.EncodedSampleCostsOneToNineGroups := by
  intro s t hopen h ht
  obtain ⟨hroom, rfl⟩ := eq_sampleWritten_of_opened hopen h ht
  exact ⟨sampleCount s, sampleCount_pos s, sampleCount_le_nine s, sampleWriter_pos_toNat hroom, sampleCount_le_eight⟩

/-- Settles O23: the range check of ENC_SAMPLE never raises. -/
theorem encSampleNeverOverflowsTheRange : Obligations.EncSampleNeverOverflowsTheRange := by
  intro s t h ht
  cases execEncSample_cases s with
  | ignored _ heq | wrote _ _ _ heq => cases heq.symm.trans h; exact ht
  | sequence _ heq | overflow _ _ heq => cases heq.symm.trans h; cases ht
  | range _ hu => exact absurd (sampleZigzag_lt s) (by omega)

/-- Settles O24, command by command. -/
theorem encoderDependsOnlyOnItsSession : Obligations.EncoderDependsOnlyOnItsSession := by
  rintro s s' i (rfl | rfl | rfl) hview
  · refine ⟨_, _, rfl, rfl, ?_⟩
    simp only [encView, Prod.mk.injEq] at hview
    simp [encView, hview]
  · exact exec_encSample_congr hview
  · exact exec_encFinish_congr hview

end Sys2Proof.Machine
end

section
/-!
SUPPORT. How NGD_DECODE ends, read off its cases (44_nibble_decoder.md R89, 20_memory.md R50), and that it depends on
nothing but R_POS, D_LIMIT and IN below D_LIMIT (R41).
-/

namespace Sys2Proof.Machine

section Decode

variable {s s' : State}

/-- A codeword that is decoded has 1 to 9 groups and ends within D_LIMIT (R89). -/
theorem ngdDecode_ok_cursor {u : DWord} {pos : Nat} (h : ngdDecode s = .ok (u, pos)) :
    ∃ k, 1 ≤ k ∧ k ≤ 9 ∧ pos = s.rPos.toNat + 5 * k ∧ pos ≤ s.dLimit.toNat := by
  obtain ⟨gs, -, hend⟩ := ngdDecode_cases s
  cases hend with
  | last hlen hfit _ _ _ _ _ _ heq =>
    cases heq.symm.trans h
    exact ⟨gs.length + 1, by omega, by omega, rfl, hfit⟩
  | tenth _ heq | short _ _ heq => cases heq.symm.trans h
  | unwritten _ _ _ _ _ heq => cases heq.symm.trans h

/-- The model fault names a byte of IN below D_LIMIT that has not been written since reset (R50). -/
theorem ngdDecode_faulted {f : Fault} (h : ngdDecode s = .faulted f) :
    ∃ j, f = .unwrittenInRead j ∧ 8 * j < s.dLimit.toNat ∧ j ∉ s.inWritten := by
  obtain ⟨gs, -, hend⟩ := ngdDecode_cases s
  cases hend with
  | unwritten _ hfit j hj hfirst heq =>
    cases heq.symm.trans h
    exact ⟨j, rfl, by omega, hj⟩
  | tenth _ heq | short _ _ heq => cases heq.symm.trans h
  | last _ _ _ _ _ _ _ _ heq => cases heq.symm.trans h

/-! ### A byte not written since reset -/

/-- A group whose first byte has not been written faults there (R50). -/
theorem brReadGroup_of_first_unwritten {pos : Nat} (hfit : pos + 5 ≤ s.dLimit.toNat) (h : pos / 8 ∉ s.inWritten) :
    brReadGroup s pos = .faulted (.unwrittenInRead (pos / 8)) := by
  obtain ⟨hshort, -⟩ | ⟨-, hw, -⟩ | ⟨-, j, heq, -, hj⟩ := brReadGroup_cases s pos
  · omega
  · exact absurd (hw pos (by omega) (by omega)) h
  · obtain rfl | ⟨hw, -⟩ := hj
    · exact heq
    · exact absurd hw h

/-- A group whose first byte has been written and whose last has not faults at the last (R50). -/
theorem brReadGroup_of_last_unwritten {pos : Nat} (hfit : pos + 5 ≤ s.dLimit.toNat) (hfirst : pos / 8 ∈ s.inWritten)
    (h : (pos + 4) / 8 ∉ s.inWritten) : brReadGroup s pos = .faulted (.unwrittenInRead ((pos + 4) / 8)) := by
  obtain ⟨hshort, -⟩ | ⟨-, hw, -⟩ | ⟨-, j, heq, hj, hj'⟩ := brReadGroup_cases s pos
  · omega
  · exact absurd (hw (pos + 4) (by omega) (by omega)) h
  · obtain rfl | ⟨-, rfl⟩ := hj'
    · exact absurd hfirst hj
    · exact heq

/-- A fault of the next group ends NGD_DECODE (R50, R89). -/
theorem ngdDecode_of_group_faulted {gs : List Group} (h : ReadSoFar s s.rPos.toNat gs) (hlen : gs.length ≤ 8) {f : Fault}
    (hgroup : brReadGroup s (s.rPos.toNat + 5 * gs.length) = .faulted f) : ngdDecode s = .faulted f := by
  obtain ⟨u, -, heq⟩ := ngdLoop_continue s _ gs h (by omega)
  rw [ngdDecode, Config.maxGroups, heq, show 9 - gs.length = (8 - gs.length) + 1 by omega, ngdLoop, hgroup]
  rfl

/-! ### What NGD_DECODE depends on -/

/-- A bit below `n` reads alike in states that show the same IN there. -/
theorem brReadBit_congr {n k : Nat} (h : SameInBelow n s s') (hk : k < n) : brReadBit s k = brReadBit s' k := by
  obtain ⟨hbyte, hwritten⟩ := h (k / 8) (by omega)
  simp only [brReadBit_eq, streamBit, hbyte, hwritten]

/-- The bits of a group, all below `n`. -/
theorem brGather_congr {n pos : Nat} (h : SameInBelow n s s') (js : List Nat) (hjs : ∀ j ∈ js, pos + j < n) (g : Group) :
    brGather s pos js g = brGather s' pos js g := by
  induction js generalizing g with
  | nil => rfl
  | cons j js ih =>
    have hrest : ∀ j' ∈ js, pos + j' < n := fun j' hj' => hjs j' (List.mem_cons_of_mem _ hj')
    simp only [brGather, brReadBit_congr h (hjs j (List.mem_cons_self ..)), ih hrest]

/-- A group is read only within D_LIMIT (R103). -/
theorem brReadGroup_congr (hlimit : s.dLimit = s'.dLimit) (h : SameInBelow s.dLimit.toNat s s') (pos : Nat) :
    brReadGroup s pos = brReadGroup s' pos := by
  unfold brReadGroup Config.groupW
  rw [← hlimit]
  split_ifs with hfit
  · rfl
  · refine brGather_congr h _ (fun j hj => ?_) _
    have : j < 5 := by
      revert j
      decide
    omega

theorem ngdLoop_congr (hlimit : s.dLimit = s'.dLimit) (h : SameInBelow s.dLimit.toNat s s') (rounds i pos : Nat)
    (u : DWord) : ngdLoop s rounds i pos u = ngdLoop s' rounds i pos u := by
  induction rounds generalizing i pos u with
  | zero => rfl
  | succ rounds ih => simp only [ngdLoop, brReadGroup_congr hlimit h, ih]

/-- NGD_DECODE reads no bit at or beyond D_LIMIT (R41). -/
theorem ngdDecode_congr (hpos : s.rPos = s'.rPos) (hlimit : s.dLimit = s'.dLimit) (h : SameInBelow s.dLimit.toNat s s') :
    ngdDecode s = ngdDecode s' := by
  rw [ngdDecode, ngdDecode, hpos, ngdLoop_congr hlimit h]

end Decode

end Sys2Proof.Machine
end

section
/-!
SUPPORT. Single cases of DEC_SAMPLE (47_commands.md R113), the frame of the decoder commands (10_state.md R39), and what
decides their outcome.
-/

namespace Sys2Proof.Machine

section Decoder

variable {s s' t : State}

/-- DEC_SAMPLE has no place in IDLE or COMPLETE (R113). -/
theorem exec_decSample_of_outOfSequence (h : s.dState = .idle ∨ s.dState = .complete) :
    exec .decSample s = .next (s.beginCommand.raise .dec .sequenceError) := by
  cases execDecSample_cases s with
  | sequence _ heq => exact heq
  | ignored h' | decodeError h' | unwritten h' | range h' | sample h' => simp [h'] at h

/-- A fault of the codeword ends DEC_SAMPLE (R50). -/
theorem exec_decSample_of_faulted (h : s.dState = .active) {f : Fault} (hd : ngdDecode s = .faulted f) :
    exec .decSample s = .fault f := by
  cases execDecSample_cases s with
  | unwritten _ f' hd' heq => cases hd.symm.trans hd'; exact heq
  | ignored h' | sequence h' => simp [h] at h'
  | decodeError _ _ hd' | range _ _ _ hd' | sample _ _ _ hd' => cases hd.symm.trans hd'

/-- The sum of the context and the residual, in integers (R75, R81). -/
theorem reconstructed_eq (s : State) (u : DWord) : reconstructed s u = s.dPrev.toInt + unzigzag u.toNat := by
  rw [reconstructed, zzToSigned_toInt]

/-- A value or a sample out of range is recorded (R75, R80). -/
theorem exec_decSample_of_out_of_range (h : s.dState = .active) {u : DWord} {pos : Nat} (hd : ngdDecode s = .ok (u, pos))
    (hrange : 2 ^ 34 ≤ u.toNat ∨ reconstructed s u < -2 ^ 31 ∨ 2 ^ 31 - 1 < reconstructed s u) :
    exec .decSample s = .next (s.beginCommand.raise .dec .integerOverflow) := by
  cases execDecSample_cases s with
  | range _ _ _ _ _ heq => exact heq
  | sample _ u' pos' hd' hu hr =>
    cases hd.symm.trans hd'
    omega
  | ignored h' | sequence h' => simp [h] at h'
  | decodeError _ _ hd' | unwritten _ _ hd' => cases hd.symm.trans hd'

/-- A value and a sample in range are committed (R113). -/
theorem exec_decSample_of_in_range (h : s.dState = .active) {u : DWord} {pos : Nat} (hd : ngdDecode s = .ok (u, pos))
    (hu : u.toNat < 2 ^ 34) (hlo : -2 ^ 31 ≤ reconstructed s u) (hhi : reconstructed s u ≤ 2 ^ 31 - 1) :
    exec .decSample s = .next (s.beginCommand.commitSample pos (BitVec.ofInt 32 (reconstructed s u))) := by
  cases execDecSample_cases s with
  | sample _ u' pos' hd' _ _ heq => cases hd.symm.trans hd'; exact heq
  | range _ u' pos' hd' hr =>
    cases hd.symm.trans hd'
    omega
  | ignored h' | sequence h' => simp [h] at h'
  | decodeError _ _ hd' | unwritten _ _ hd' => cases hd.symm.trans hd'

/-- The commit of an active session, written out (R113). -/
theorem commitSample_of_active (h : s.dState = .active) (pos : Nat) (x : Word) :
    s.beginCommand.commitSample pos x = { s with
      cmdErr := .noError
      rPos := BitVec.ofNat 64 pos
      dPrev := x
      result := x
      dDone := s.dDone + 1#32
      dState := if ((s.dDone + 1#32).toNat : Int) = s.dN.toInt then .complete else .active } := by
  simp only [State.commitSample, beginCommand_dState, h]
  rfl

/-! ### The frame of the decoder commands -/

/-- The fields a decoder command may write; the others stay (R39). -/
def DecFrame (s t : State) : Prop :=
  t = { s with
    cmdErr := .noError, dState := t.dState, dErr := t.dErr, dPrev := t.dPrev, rPos := t.rPos, dLimit := t.dLimit,
    dN := t.dN, dDone := t.dDone, result := t.result, errLog := t.errLog }

theorem execDecInit_frame (h : execDecInit s = .next t) : DecFrame s t ∧ t.result = s.result := by
  obtain ⟨-, heq⟩ | ⟨-, heq⟩ | ⟨-, -, heq⟩ | ⟨-, -, heq⟩ := execDecInit_cases s <;> cases heq.symm.trans h <;>
    exact ⟨rfl, rfl⟩

theorem execDecSample_frame (h : execDecSample s = .next t) : DecFrame s t ∧ t.dN = s.dN ∧ t.dLimit = s.dLimit := by
  cases execDecSample_cases s with
  | ignored _ heq | sequence _ heq | decodeError _ _ _ heq | range _ _ _ _ _ heq | sample _ _ _ _ _ _ heq =>
    cases heq.symm.trans h
    exact ⟨rfl, rfl, rfl⟩
  | unwritten _ _ _ heq => cases heq.symm.trans h

/-! ### What decides the outcome -/

/-- Two outcomes of a decoder command are alike: the decoder registers agree, or the fault is the same (R39). -/
inductive AlikeForDecoder : Host.Outcome State Fault Refusal → Host.Outcome State Fault Refusal → Prop where
  | next {t t' : State} (h : decRegs t = decRegs t') : AlikeForDecoder (.next t) (.next t')
  | fault (f : Fault) : AlikeForDecoder (.fault f) (.fault f)

/-- DEC_INIT reads the decoder registers only. -/
theorem exec_decInit_congr (h : decRegs s = decRegs s') : AlikeForDecoder (exec .decInit s) (exec .decInit s') := by
  simp only [decRegs, Prod.mk.injEq] at h
  obtain ⟨hstate, herr, hprev, hpos, hlimit, hn, hdone, hlen, hresult, harg, hcap⟩ := h
  rcases lt_trichotomy s.arg.toInt 0 with hcount | hcount | hcount
  · rw [exec_decInit_of_count_neg hcount, exec_decInit_of_count_neg (harg ▸ hcount)]
    exact .next (by simp [decRegs, *])
  · rw [exec_decInit_of_count_zero hcount, exec_decInit_of_count_zero (harg ▸ hcount)]
    exact .next (by simp [decRegs, *])
  · rcases lt_or_ge s.capIn.toNat s.inLen.toNat with hfit | hfit
    · rw [exec_decInit_of_input_too_long hcount hfit, exec_decInit_of_input_too_long (harg ▸ hcount) (hcap ▸ hlen ▸ hfit)]
      exact .next (by simp [decRegs, *])
    · rw [exec_decInit_of_input_fits hcount hfit, exec_decInit_of_input_fits (harg ▸ hcount) (hcap ▸ hlen ▸ hfit)]
      exact .next (by simp [decRegs, *])

/-- DEC_SAMPLE reads the decoder registers and IN below D_LIMIT only. -/
theorem exec_decSample_congr (h : decRegs s = decRegs s') (hin : SameInBelow s.dLimit.toNat s s') :
    AlikeForDecoder (exec .decSample s) (exec .decSample s') := by
  simp only [decRegs, Prod.mk.injEq] at h
  obtain ⟨hstate, herr, hprev, hpos, hlimit, hn, hdone, hlen, hresult, harg, hcap⟩ := h
  have hdecode : ngdDecode s = ngdDecode s' := ngdDecode_congr hpos hlimit hin
  have hsum (u : DWord) : reconstructed s u = reconstructed s' u := by rw [reconstructed, reconstructed, hprev]
  have hexec : exec .decSample s = execDecSample s := rfl
  rw [hexec]
  cases execDecSample_cases s with
  | ignored hs heq =>
    rw [heq, exec_decSample_of_failed (hstate ▸ hs)]
    exact .next (by simp [decRegs, *])
  | sequence hs heq =>
    rw [heq, exec_decSample_of_outOfSequence (hstate ▸ hs)]
    exact .next (by simp [decRegs, *])
  | decodeError hs c hd heq =>
    rw [heq, exec_decSample_of_decodeError (hstate ▸ hs) (hdecode ▸ hd)]
    exact .next (by simp [decRegs, *])
  | unwritten hs f hd heq =>
    rw [heq, exec_decSample_of_faulted (hstate ▸ hs) (hdecode ▸ hd)]
    exact .fault f
  | range hs u pos hd hr heq =>
    rw [heq, exec_decSample_of_out_of_range (hstate ▸ hs) (hdecode ▸ hd) (hsum u ▸ hr)]
    exact .next (by simp [decRegs, *])
  | sample hs u pos hd hu hr heq =>
    rw [heq, exec_decSample_of_in_range (hstate ▸ hs) (hdecode ▸ hd) hu (hsum u ▸ hr.1) (hsum u ▸ hr.2)]
    exact .next (by simp [decRegs, *])

end Decoder

end Sys2Proof.Machine
end

section
/-!
PROOF. The statements of 47_commands.md about DEC_SAMPLE (R113), of 20_memory.md about unwritten bytes (R50), and of
10_state.md about the decoder's frame (R39).
-/

namespace Sys2Proof.Machine

/-- Settles O36: the codeword is decoded to its value, which passes both range checks. -/
theorem decSampleDecodesTheCodeword : Obligations.DecSampleDecodesTheCodeword := by
  rintro s gs g x hactive hcont hg hlen hholds hfit hw hvalue rfl hlo hhi
  obtain ⟨u, hu, hdecode⟩ := ngdDecode_of_streamHolds hcont hg hlen hholds hfit hw
  rw [← hu] at hvalue hlo hhi ⊢
  rw [← reconstructed_eq] at hlo hhi ⊢
  rw [exec_decSample_of_in_range hactive hdecode hvalue hlo hhi, commitSample_of_active hactive]

/-- Settles O37; the bit of InsufficientData in ERR_LOG is 0x04. -/
theorem decSampleShortInputRaisesInsufficientData : Obligations.DecSampleShortInputRaisesInsufficientData := by
  intro s gs hactive hcont hlen hholds hfit hw hshort
  have hread : ReadSoFar s s.rPos.toNat gs := ⟨hholds, hcont, hfit, hw⟩
  exact exec_decSample_of_decodeError hactive (ngdDecode_short s gs hread (by omega) hshort)

/-- Settles O38; the bit of IntegerOverflow in ERR_LOG is 0x08. -/
theorem decSampleOfNineContinuingGroupsOverflows : Obligations.DecSampleOfNineContinuingGroupsOverflows := by
  intro s gs hactive hcont hlen hholds hfit hw
  have hread : ReadSoFar s s.rPos.toNat gs := ⟨hholds, hcont, .inr (by omega), by simpa [hlen] using hw⟩
  exact exec_decSample_of_decodeError hactive (ngdDecode_nine s gs hread hlen)

/-- Settles O39: the codeword is decoded, and its value or its sample fails a range check. -/
theorem decSampleOutOfRangeOverflows : Obligations.DecSampleOutOfRangeOverflows := by
  intro s gs g hactive hcont hg hlen hholds hfit hw hrange
  obtain ⟨u, hu, hdecode⟩ := ngdDecode_of_streamHolds hcont hg hlen hholds hfit hw
  rw [← hu, ← reconstructed_eq] at hrange
  exact exec_decSample_of_out_of_range hactive hdecode hrange

/-- Settles O40; the bit of SequenceError in ERR_LOG is 0x20. -/
theorem decSampleOutOfSequenceRaises : Obligations.DecSampleOutOfSequenceRaises :=
  fun _ => exec_decSample_of_outOfSequence

/-- Settles O41: the group after the continuing ones faults, at its first or its last byte. -/
theorem decSampleOnUnwrittenByteFaults : Obligations.DecSampleOnUnwrittenByteFaults := by
  rintro s gs p hactive hcont hlen hholds hw rfl hfit
  have hread : ReadSoFar s s.rPos.toNat gs := ⟨hholds, hcont, .inr (by omega), hw⟩
  refine ⟨fun hfirst => ?_, fun hfirst hlast => ?_⟩
  · exact exec_decSample_of_faulted hactive
      (ngdDecode_of_group_faulted hread hlen (brReadGroup_of_first_unwritten hfit hfirst))
  · exact exec_decSample_of_faulted hactive
      (ngdDecode_of_group_faulted hread hlen (brReadGroup_of_last_unwritten hfit hfirst hlast))

/-- Settles O42: the only fault names an unwritten byte below D_LIMIT, and there is none. -/
theorem decSampleOnLoadedInputNeverFaults : Obligations.DecSampleOnLoadedInputNeverFaults := by
  intro s hloaded
  cases execDecSample_cases s with
  | ignored _ heq | sequence _ heq | decodeError _ _ _ heq | range _ _ _ _ _ heq | sample _ _ _ _ _ _ heq =>
    exact ⟨_, heq⟩
  | unwritten _ f hd =>
    obtain ⟨j, -, hj, hunwritten⟩ := ngdDecode_faulted hd
    exact absurd (hloaded j hj) hunwritten

/-- Settles O43, command by command. -/
theorem decoderCommandsFrame : Obligations.DecoderCommandsFrame := by
  rintro s t i hi h
  have hlog := (exec_errorsLogged h).errLog_and
  rcases hi with rfl | rfl
  · obtain ⟨hrest, hresult⟩ := execDecInit_frame h
    exact ⟨hrest, fun _ => hresult, nofun, hlog⟩
  · obtain ⟨hrest, hn, hlimit⟩ := execDecSample_frame h
    exact ⟨hrest, nofun, fun _ => ⟨hn, hlimit⟩, hlog⟩

/-- Settles O44: the outcomes of either command are alike. -/
theorem decoderDependsOnlyOnItsSessionAndInput : Obligations.DecoderDependsOnlyOnItsSessionAndInput := by
  intro s s' i hi hregs hin
  have halike : AlikeForDecoder (exec i s) (exec i s') := by
    rcases hi with rfl | rfl
    · exact exec_decInit_congr hregs
    · exact exec_decSample_congr hregs hin
  refine ⟨fun t ht => ?_, fun f hf => ?_⟩
  · rw [ht] at halike
    generalize exec i s' = o at halike ⊢
    cases halike with
    | next h => exact ⟨_, rfl, h⟩
  · rw [hf] at halike
    generalize exec i s' = o at halike ⊢
    cases halike with
    | fault f => rfl

/-- Settles O45: five zero bits are the codeword of the residual 0. -/
theorem zeroGroupRepeatsThePreviousSample : Obligations.ZeroGroupRepeatsThePreviousSample := by
  intro s hactive hfit hw hzero
  have hread := readSoFar_nil s s.rPos.toNat
  obtain ⟨u, hu, hdecode⟩ := ngdDecode_codeword s [] 0#5 hread (by decide) hfit hw (by simpa using hzero) rfl
  have hvalue : u.toNat = 0 := hu
  have hsum : reconstructed s u = s.dPrev.toInt := by rw [reconstructed_eq, hvalue]; exact Int.add_zero _
  obtain ⟨hlo, hhi⟩ := sample_bounds s.dPrev
  rw [exec_decSample_of_in_range hactive hdecode (by omega) (by omega) (by omega), hsum, BitVec.ofInt_toInt,
    commitSample_of_active hactive]
  rfl

/-- Settles O46: what ENC_SAMPLE wrote is the codeword of the residual, and the context undoes the residual. -/
theorem oneSampleRoundTrips : Obligations.OneSampleRoundTrips := by
  intro s t d hopen hexec ht hactive hprev hpos hlimit hw hbits
  obtain ⟨hroom, rfl⟩ := eq_sampleWritten_of_opened hopen hexec ht
  have hend : s.sampleWritten.wPos.toNat = s.wPos.toNat + 5 * sampleCount s := sampleWriter_pos_toNat hroom
  rw [hend] at hlimit hbits
  rw [hend, Nat.add_sub_cancel_left] at hw
  rw [← hpos] at hlimit hbits hw
  have hholds : StreamHolds d.inByte d.rPos.toNat (ngeGroups (sampleZigzag s)) := by
    intro i hi j hj
    rw [hbits _ (by omega) (by rw [sampleCount]; omega), hpos]
    exact sampleWriter_holds hroom i hi j hj
  have hvalue := sampleZigzag_lt s
  have hdecode : ngdDecode d = .ok (sampleZigzag s, d.rPos.toNat + 5 * sampleCount s) :=
    ngdDecode_ngeGroups (hvalue.trans (by decide)) hholds hlimit hw
  have hsum : reconstructed d (sampleZigzag s) = s.arg.toInt := by
    rw [reconstructed_eq, sampleZigzag_toNat, unzigzag_zigzag, hprev]
    omega
  obtain ⟨hlo, hhi⟩ := sample_bounds s.arg
  refine ⟨_, exec_decSample_of_in_range hactive hdecode hvalue (by omega) (by omega), ?_⟩
  rw [hsum, BitVec.ofInt_toInt]
  refine ⟨rfl, rfl, BitVec.eq_of_toNat_eq ?_, rfl, rfl⟩
  have hlt := d.dLimit.isLt
  rw [commitSample_rPos, BitVec.toNat_ofNat, Nat.mod_eq_of_lt (by omega), hend, hpos]

/-- Settles O58: a committed sample leaves its session ACTIVE or COMPLETE, and nothing else writes the result. -/
theorem failedDecSampleReturnsNothing : Obligations.FailedDecSampleReturnsNothing := by
  intro s t h hfailed
  have hinvalid : ¬DecompressValid t := by simp [DecompressValid, hfailed]
  cases execDecSample_cases s with
  | ignored _ heq | sequence _ heq | decodeError _ _ _ heq | range _ _ _ _ _ heq =>
    cases heq.symm.trans h
    exact ⟨rfl, rfl, rfl, rfl, hinvalid⟩
  | sample hactive _ _ _ _ _ heq =>
    cases heq.symm.trans h
    rw [commitSample_of_active hactive] at hfailed
    split_ifs at hfailed
  | unwritten _ _ _ heq => cases heq.symm.trans h

end Sys2Proof.Machine
end

section
/-!
SUPPORT. What one access of the host does where it is no command (20_memory.md R40, 10_state.md R18), and what a read of the
register window returns.
-/

namespace Sys2Proof.Machine

section Host

variable {s : State} {op : HostOp} {ops : List HostOp}

/-- A step performs the host's next access on the state without it (R51). -/
theorem step_of_pending (h : s.hostOps = op :: ops) : step s = perform op { s with hostOps := ops } := by
  rw [step, hostStep, h]

/-- The offsets of the window that are admitted (R19). -/
theorem offsetAligned_iff (off : BitVec 8) : offsetAligned off = true ↔ off.toNat % 4 = 0 := by
  simp [offsetAligned]

theorem step_of_regRead {off : BitVec 8} (h : s.hostOps = .regRead off :: ops) (hoff : off.toNat % 4 = 0) :
    step s = .next (State.seen { s with hostOps := ops } (.reg off (s.readOffset off))) := by
  rw [step_of_pending h, perform, (offsetAligned_iff off).2 hoff]
  rfl

theorem step_of_regWrite {off : BitVec 8} {v : Word} (h : s.hostOps = .regWrite off v :: ops) (hoff : off.toNat % 4 = 0)
    (hcmd : off ≠ cmdOffset) : step s = .next (State.writeOffset { s with hostOps := ops } off v) := by
  rw [step_of_pending h, perform, (offsetAligned_iff off).2 hoff, if_neg (by decide), if_neg hcmd]

theorem step_of_inWrite {j : Nat} {b : Byte} (h : s.hostOps = .inWrite j b :: ops) (hj : j < s.capIn.toNat) :
    step s = .next (State.hostWriteIn { s with hostOps := ops } j b) :=
  (step_of_pending h).trans (if_pos hj)

theorem step_of_inRead {j : Nat} (h : s.hostOps = .inRead j :: ops) (hj : j < s.capIn.toNat) :
    step s = .next (State.seen { s with hostOps := ops } (.inByte j (s.inByte j))) :=
  (step_of_pending h).trans (if_pos hj)

theorem step_of_outRead {j : Nat} (h : s.hostOps = .outRead j :: ops) (hj : j < s.capOut.toNat) :
    step s = .next (State.seen { s with hostOps := ops } (.outByte j (s.outByte j))) :=
  (step_of_pending h).trans (if_pos hj)

/-- A register access at an offset that is not a multiple of 4 is refused (R19). -/
theorem step_of_misaligned {off : BitVec 8} {v : Word} (hoff : off.toNat % 4 ≠ 0)
    (h : s.hostOps = .regWrite off v :: ops ∨ s.hostOps = .regRead off :: ops) :
    step s = .refused (.misalignedRegisterAccess off) := by
  have hoff' : offsetAligned off = false := by rwa [← Bool.not_eq_true, offsetAligned_iff]
  rcases h with h | h <;> rw [step_of_pending h, perform, if_pos hoff']

/-- An access to IN at or beyond its capacity is refused (R40). -/
theorem step_of_in_out_of_range {j : Nat} {b : Byte} (hj : s.capIn.toNat ≤ j)
    (h : s.hostOps = .inWrite j b :: ops ∨ s.hostOps = .inRead j :: ops) : step s = .refused (.bufferIndexOutOfRange j) := by
  rcases h with h | h <;> exact (step_of_pending h).trans (if_neg (Nat.not_lt.2 hj))

/-- An access to OUT at or beyond its capacity is refused (R40). -/
theorem step_of_out_out_of_range {j : Nat} (hj : s.capOut.toNat ≤ j) (h : s.hostOps = .outRead j :: ops) :
    step s = .refused (.bufferIndexOutOfRange j) :=
  (step_of_pending h).trans (if_neg (Nat.not_lt.2 hj))

end Host

/-! ### The halves of a 64-bit register -/

@[simp] theorem loHalf_toNat (v : DWord) : (loHalf v).toNat = v.toNat % 2 ^ 32 := by
  simp [loHalf]

@[simp] theorem hiHalf_toNat (v : DWord) : (hiHalf v).toNat = v.toNat / 2 ^ 32 := by
  have hv := v.isLt
  rw [hiHalf, BitVec.extractLsb'_toNat, Nat.shiftRight_eq_div_pow, Nat.mod_eq_of_lt]
  omega

/-- No register stands at or beyond offset 0x4C (R18). -/
theorem regAt_of_reserved {off : BitVec 8} (h : 0x4C ≤ off.toNat) : regAt off = none := by
  unfold regAt
  split
  case h_20 => rfl
  all_goals omega

/-- A reserved offset reads 0 (R18). -/
theorem readOffset_of_reserved (s : State) {off : BitVec 8} (h : 0x4C ≤ off.toNat) : s.readOffset off = 0#32 := by
  rw [State.readOffset, regAt_of_reserved h]

end Sys2Proof.Machine
end

section
/-!
PROOF. The statements about the host's accesses (10_state.md R18 to R20, 20_memory.md R40 to R54) and about reset
(70_reset_and_hazards.md R131, R132).
-/

namespace Sys2Proof.Machine

/-- Settles O1: each field is the one `State.resetWith` writes, and STATUS is 0 with them. -/
theorem resetLeavesEveryRegisterAtItsValue : Obligations.ResetLeavesEveryRegisterAtItsValue := by
  rintro inCap outCap s rfl
  refine ⟨rfl, rfl, rfl, rfl, rfl, rfl, rfl, rfl, rfl, rfl, rfl, rfl, rfl, rfl, rfl, rfl, rfl, ?_, rfl, rfl,
    fun j => ⟨rfl, rfl, List.not_mem_nil⟩⟩
  rw [readOffset_status, status_resetWith]

/-- Settles O2: the reset step is performed like any other access. -/
theorem resetStepKeepsBuffers : Obligations.ResetStepKeepsBuffers :=
  fun _ _ h => step_of_pending h

/-- Settles O48, offset by offset. -/
theorem registerWindowReads : Obligations.RegisterWindowReads := fun s =>
  ⟨rfl, rfl, rfl, rfl, rfl, rfl, rfl, rfl, rfl, rfl, loHalf_toNat s.wPos, hiHalf_toNat s.wPos, loHalf_toNat s.rPos,
    hiHalf_toNat s.rPos, loHalf_toNat s.dLimit, hiHalf_toNat s.dLimit, rfl, rfl, fun _ => readOffset_of_reserved s⟩

/-- Settles O49. -/
theorem registerReadHasNoSideEffect : Obligations.RegisterReadHasNoSideEffect :=
  fun _ _ _ h hoff => step_of_regRead h hoff

/-- Settles O50, by the one equation of a register write. -/
theorem registerWritesReachOnlyArgAndInLen : Obligations.RegisterWritesReachOnlyArgAndInLen := by
  intro s off v ops h hoff hcmd
  rw [step_of_regWrite h hoff hcmd, writeOffset_eq]
  rfl

/-- Settles O51, by the laws of the memory and of the record of written indices. -/
theorem hostWriteReachesOneByteOfIn : Obligations.HostWriteReachesOneByteOfIn := by
  intro s j b ops h hj
  refine ⟨_, step_of_inWrite h hj, rfl, ?_, ?_, fun i hi => ⟨?_, ?_⟩⟩
  · rw [hostWriteIn_inByte, if_pos rfl]
  · simp
  · rw [hostWriteIn_inByte, if_neg hi]
    rfl
  · simp [hi]

/-- Settles O52: the byte recorded is the one last written, or else the free value. -/
theorem hostByteReadsHaveNoSideEffect : Obligations.HostByteReadsHaveNoSideEffect := by
  refine ⟨fun s j ops h hj => ⟨_, step_of_inRead h hj, fun v hv => ?_, fun hnone => ?_⟩,
    fun s j ops h hj => ⟨_, step_of_outRead h hj, fun v hv => ?_, fun hnone => ?_⟩⟩
  · rw [State.inByte, hv, Option.getD_some]
  · rw [State.inByte, hnone, Option.getD_none]
  · rw [State.outByte, outByteOf, hv, Option.getD_some]
  · rw [State.outByte, outByteOf, hnone, Option.getD_none]

/-- Settles O53. -/
theorem unadmittedHostAccessesAreRefused : Obligations.UnadmittedHostAccessesAreRefused :=
  fun _ _ => ⟨fun _ _ hoff h => step_of_misaligned hoff h, fun _ _ h => step_of_pending h,
    fun _ _ hj h => step_of_in_out_of_range hj h, fun _ hj h => step_of_out_out_of_range hj h⟩

/-- Settles O54. -/
theorem nothingHappensWithoutTheHost : Obligations.NothingHappensWithoutTheHost := by
  intro s h
  rw [step, hostStep, h]

end Sys2Proof.Machine
end

section
/-!
SUPPORT. Which command writes which register (10_state.md sections 2 to 6), and how far a command moves a cursor (R25, R30).
-/

namespace Sys2Proof.Machine

section Commands

variable {s t : State}

/-! ### Cursors -/

theorem execEncSample_wPos (h : execEncSample s = .next t) : ∃ k ≤ 9, t.wPos.toNat = s.wPos.toNat + 5 * k := by
  cases execEncSample_cases s with
  | ignored _ heq | sequence _ heq | range _ _ heq | overflow _ _ heq =>
    cases heq.symm.trans h
    exact ⟨0, by omega, rfl⟩
  | wrote _ _ hc heq =>
    cases heq.symm.trans h
    exact ⟨sampleCount s, sampleCount_le_nine s, sampleWriter_pos_toNat hc⟩

theorem execDecSample_rPos (h : execDecSample s = .next t) : ∃ k ≤ 9, t.rPos.toNat = s.rPos.toNat + 5 * k := by
  cases execDecSample_cases s with
  | ignored _ heq | sequence _ heq | decodeError _ _ _ heq | range _ _ _ _ _ heq =>
    cases heq.symm.trans h
    exact ⟨0, by omega, rfl⟩
  | sample _ u pos hd _ _ heq =>
    cases heq.symm.trans h
    obtain ⟨k, -, hk, hpos, hle⟩ := ngdDecode_ok_cursor hd
    have hlt := s.dLimit.isLt
    refine ⟨k, hk, ?_⟩
    rw [commitSample_rPos, BitVec.toNat_ofNat, Nat.mod_eq_of_lt (by omega), hpos]
  | unwritten _ _ _ heq => cases heq.symm.trans h

/-- States with the same encoder view have the same W_POS. -/
theorem wPos_of_encView (h : encView t = encView s) : t.wPos = s.wPos := congrArg (·.2.2.2.1) h

/-- States with the same decoder registers have the same R_POS. -/
theorem rPos_of_decRegs (h : decRegs t = decRegs s) : t.rPos = s.rPos := congrArg (·.2.2.2.1) h

theorem exec_wPos {i : Instr} (h : exec i s = .next t) (hi : i ≠ .encInit) :
    ∃ k ≤ 9, t.wPos.toNat = s.wPos.toNat + 5 * k := by
  have stays (hpos : t.wPos = s.wPos) : ∃ k ≤ 9, t.wPos.toNat = s.wPos.toNat + 5 * k := ⟨0, by omega, by rw [hpos]; rfl⟩
  cases i with
  | encInit => exact absurd rfl hi
  | encSample => exact execEncSample_wPos h
  | encFinish =>
    obtain ⟨-, -, -, hpos⟩ := execEncFinish_frame h
    exact stays hpos
  | decInit => exact stays (wPos_of_encView (execDecInit_encView h))
  | decSample => exact stays (wPos_of_encView (execDecSample_encView h))

theorem exec_rPos {i : Instr} (h : exec i s = .next t) (hi : i ≠ .decInit) :
    ∃ k ≤ 9, t.rPos.toNat = s.rPos.toNat + 5 * k := by
  have stays (hpos : t.rPos = s.rPos) : ∃ k ≤ 9, t.rPos.toNat = s.rPos.toNat + 5 * k := ⟨0, by omega, by rw [hpos]; rfl⟩
  cases i with
  | encInit => cases h; exact stays rfl
  | encSample => exact stays (rPos_of_decRegs (execEncSample_decRegs h))
  | encFinish => exact stays (rPos_of_decRegs (execEncFinish_decRegs h))
  | decInit => exact absurd rfl hi
  | decSample => exact execDecSample_rPos h

/-! ### Writers -/

/-- The registers a command leaves, and the commands that may have changed the others. -/
structure CommandWrites (i : Instr) (s t : State) : Prop where
  capIn : t.capIn = s.capIn
  capOut : t.capOut = s.capOut
  arg : t.arg = s.arg
  inLen : t.inLen = s.inLen
  inMem : t.inMem = s.inMem
  result : t.result ≠ s.result → i ∈ [.decSample]
  encState : t.eState ≠ s.eState ∨ t.eErr ≠ s.eErr → i ∈ [.encInit, .encSample, .encFinish]
  encCursor : t.ePrev ≠ s.ePrev ∨ t.wPos ≠ s.wPos → i ∈ [.encInit, .encSample]
  outLen : t.outLen ≠ s.outLen → i ∈ [.encInit, .encFinish]
  outMem : t.outMem ≠ s.outMem → i ∈ [.encSample]
  decState : t.dState ≠ s.dState ∨ t.dErr ≠ s.dErr → i ∈ [.decInit, .decSample]
  decCursor : t.dPrev ≠ s.dPrev ∨ t.rPos ≠ s.rPos ∨ t.dDone ≠ s.dDone → i ∈ [.decInit, .decSample]
  decRange : t.dN ≠ s.dN ∨ t.dLimit ≠ s.dLimit → i ∈ [.decInit]
  errLog : t.errLog ≠ s.errLog → i ≠ .encInit

/-- Every command writes only what the spec names it as a writer of. -/
theorem exec_commandWrites {i : Instr} (h : exec i s = .next t) : CommandWrites i s t := by
  cases i with
  | encInit => cases h; constructor <;> simp
  | encSample =>
    cases execEncSample_cases s with
    | ignored _ heq | sequence _ heq | range _ _ heq | overflow _ _ heq | wrote _ _ _ heq =>
      cases heq.symm.trans h
      constructor <;> simp
  | encFinish =>
    obtain ⟨-, heq⟩ | ⟨-, heq⟩ | ⟨-, heq⟩ := execEncFinish_cases s <;> cases heq.symm.trans h <;> constructor <;> simp
  | decInit =>
    obtain ⟨-, heq⟩ | ⟨-, heq⟩ | ⟨-, -, heq⟩ | ⟨-, -, heq⟩ := execDecInit_cases s <;> cases heq.symm.trans h <;>
      constructor <;> simp
  | decSample =>
    cases execDecSample_cases s with
    | ignored _ heq | sequence _ heq | decodeError _ _ _ heq | range _ _ _ _ _ heq | sample _ _ _ _ _ _ heq =>
      cases heq.symm.trans h
      constructor <;> simp
    | unwritten _ _ _ heq => cases heq.symm.trans h

/-- The host's next access writes the word of one of the commands. -/
theorem nextIsOneOf_of_mem {i : Instr} {is : List Instr} {ops : List HostOp} (h : NextIsCommand s (encode i) ops)
    (hi : i ∈ is) : NextIsOneOf s (is.map encode) :=
  ⟨encode i, List.mem_map_of_mem hi, ops, h⟩

end Commands

end Sys2Proof.Machine
end

section
/-!
PROOF. The statements about the whole machine: cursors (10_state.md R25, R30) and the writers of each register.
-/

namespace Sys2Proof.Machine

/-- Settles O56, command by command. -/
theorem cursorsOnlyMoveForward : Obligations.CursorsOnlyMoveForward :=
  fun _ _ _ h => ⟨exec_wPos h, exec_rPos h⟩

/-- Settles O57, by the host's next access. -/
theorem onlyTheNamedWriterChangesEachRegister : Obligations.OnlyTheNamedWriterChangesEachRegister := by
  intro s t hstep hreset
  cases step_cases hstep with
  | command w ops i hops hd heq =>
    obtain rfl := decode_eq_ok_iff.1 hd
    have hnext : NextIsCommand s (encode i) ops := hops
    have hwrites := exec_commandWrites heq
    refine ⟨hwrites.capIn, hwrites.capOut, fun hne => absurd hwrites.arg hne, fun hne => absurd hwrites.inLen hne,
      fun hne => absurd hwrites.inMem hne, fun hne => nextIsOneOf_of_mem hnext (hwrites.result hne),
      fun hne => nextIsOneOf_of_mem hnext (hwrites.encState hne),
      fun hne => nextIsOneOf_of_mem hnext (hwrites.encCursor hne),
      fun hne => nextIsOneOf_of_mem hnext (hwrites.outLen hne), fun hne => nextIsOneOf_of_mem hnext (hwrites.outMem hne),
      fun hne => nextIsOneOf_of_mem hnext (hwrites.decState hne),
      fun hne => nextIsOneOf_of_mem hnext (hwrites.decCursor hne),
      fun hne => nextIsOneOf_of_mem hnext (hwrites.decRange hne), fun _ => ⟨_, ops, hnext⟩,
      fun hne => ⟨_, ops, hnext, fun hone => hwrites.errLog hne ?_⟩⟩
    exact Except.ok.inj ((decode_encode i).symm.trans (congrArg decode hone))
  | illegal w ops e hops hd heq =>
    have hnext : NextIsCommand s w ops := hops
    have hone : w ≠ 1#32 := by
      rintro rfl
      cases hd
    subst heq
    simpa using ⟨fun _ => ⟨w, ops, hnext⟩, fun _ => ⟨w, ⟨ops, hnext⟩, hone⟩⟩
  | write off v ops hops _ heq =>
    have harg : off = argOffset → ∃ v ops, s.hostOps = .regWrite 0x04#8 v :: ops := by
      rintro rfl
      exact ⟨v, ops, hops⟩
    have hlen : off = inLenOffset → ∃ v ops, s.hostOps = .regWrite 0x14#8 v :: ops := by
      rintro rfl
      exact ⟨v, ops, hops⟩
    rw [writeOffset_eq] at heq
    subst heq
    simpa using ⟨fun hne _ => harg hne, fun hne _ => hlen hne⟩
  | input j b ops hops _ heq =>
    subst heq
    simpa using fun _ => ⟨j, b, ops, hops⟩
  | idle _ heq => subst heq; simp
  | read _ _ _ _ heq => subst heq; simp
  | reset ops hops => exact absurd hops (hreset ops)

end Sys2Proof.Machine
end

section
/-!
SUPPORT. The invariant of the block (Safety.lean), part by part: what starts it and what keeps it. Where an update leaves the
fields a part speaks of, the part is carried over field by field (`{ h with }`).
-/

namespace Sys2Proof.Machine

section Invariant

variable {s t : State}

/-! ### The encoder session -/

/-- The encoder part speaks of nothing outside the encoder's view (R39). -/
theorem encInv_of_encView (h : EncInv s) (hview : encView t = encView s) : EncInv t := by
  simp only [encView, Prod.mk.injEq] at hview
  obtain ⟨hstate, herr, hprev, hpos, hlen, hout, -, hcap⟩ := hview
  obtain ⟨hiff, hkinds, hcursor, hgroups, hclean, hidle, hopen, hclosed, hlenIn⟩ := h
  have hclean' : PartialByteClean t := by
    unfold PartialByteClean State.outByte at hclean ⊢
    rwa [hpos, hout]
  constructor <;> simpa only [hstate, herr, hprev, hpos, hlen, hcap]

/-- Without a bit written there is no partial byte (R97). -/
theorem partialByteClean_of_no_bits (h : s.wPos = 0#64) : PartialByteClean s := by
  intro q _ hq
  rw [h] at hq
  exact absurd hq (Nat.not_lt_zero q)

/-- A recorded error keeps cursor, stream and length (R119). -/
theorem encInv_raise (h : EncInv s) {c : ErrCode} (hc : c = .outputOverflow ∨ c = .sequenceError) :
    EncInv (s.raise .enc c) :=
  { h with
    errIffFailed := by rcases hc with rfl | rfl <;> simp
    errKinds := .inr hc
    idleZero := nofun
    openLen := nofun
    closedLen := nofun }

/-- ENC_INIT opens an empty stream (R109). -/
theorem encInv_encInit (h : exec .encInit s = .next t) : EncInv t := by
  cases h
  exact {
    errIffFailed := by simp
    errKinds := .inl rfl
    cursorInOut := Nat.zero_le _
    wholeGroups := rfl
    partialClean := partialByteClean_of_no_bits rfl
    idleZero := nofun
    openLen := fun _ => rfl
    closedLen := nofun
    lenInOut := Nat.zero_le _ }

/-- The bits above the codeword in its last byte are 0: the byte is new, or it is the partial byte of before (R97). -/
theorem partialByteClean_sampleWritten (h : PartialByteClean s) (hroom : HasRoom s) : PartialByteClean s.sampleWritten := by
  intro q hq hq'
  have hpos : s.sampleWritten.wPos.toNat = s.wPos.toNat + 5 * sampleCount s := sampleWriter_pos_toNat hroom
  rw [hpos] at hq hq'
  refine (sampleWriter_above hroom hq).trans ?_
  split_ifs with hnew
  · rfl
  · refine h q (by omega) ?_
    simp only [ceilDiv] at hq' ⊢
    omega

/-- ENC_SAMPLE writes whole groups within OUT (R25, R110). -/
theorem encInv_sampleWritten (h : EncInv s) (hopen : s.eState = .opened) (hroom : HasRoom s) :
    EncInv s.sampleWritten := by
  have hpos : s.sampleWritten.wPos.toNat = s.wPos.toNat + 5 * sampleCount s := sampleWriter_pos_toNat hroom
  have hcap : s.wPos.toNat + 5 * sampleCount s ≤ 8 * s.capOut.toNat := (room_of_capacity hroom).1
  have hgroups := h.wholeGroups
  have hstate : s.sampleWritten.eState = .opened := hopen
  exact { h with
    cursorInOut := by rwa [hpos]
    wholeGroups := by rw [hpos]; omega
    partialClean := partialByteClean_sampleWritten h.partialClean hroom
    idleZero := fun hidle => by simp [hstate] at hidle
    closedLen := fun hclosed => by simp [hstate] at hclosed }

theorem encInv_encSample (h : EncInv s) (hexec : exec .encSample s = .next t) : EncInv t := by
  have hbegin : EncInv s.beginCommand := { h with }
  cases execEncSample_cases s with
  | ignored _ heq => cases heq.symm.trans hexec; exact hbegin
  | sequence _ heq => cases heq.symm.trans hexec; exact encInv_raise hbegin (.inr rfl)
  | range _ hu => exact absurd (sampleZigzag_lt s) (by omega)
  | overflow _ _ heq => cases heq.symm.trans hexec; exact encInv_raise hbegin (.inl rfl)
  | wrote hopen _ hroom heq => cases heq.symm.trans hexec; exact encInv_sampleWritten h hopen hroom

theorem encInv_encFinish (h : EncInv s) (hexec : exec .encFinish s = .next t) : EncInv t := by
  have hbegin : EncInv s.beginCommand := { h with }
  obtain ⟨-, heq⟩ | ⟨-, heq⟩ | ⟨hopen, heq⟩ := execEncFinish_cases s <;> cases heq.symm.trans hexec
  · exact hbegin
  · exact encInv_raise hbegin (.inr rfl)
  · have hlen := finishedLength_toNat h
    exact { h with
      errIffFailed := by simp [eErr_of_opened h hopen]
      idleZero := nofun
      openLen := nofun
      closedLen := fun _ => hlen
      lenInOut := hlen.trans_le (ceilDiv_wPos_le h) }

/-- Every command keeps the encoder part. -/
theorem exec_encInv (h : EncInv s) {i : Instr} (hexec : exec i s = .next t) : EncInv t := by
  cases i with
  | encInit => exact encInv_encInit hexec
  | encSample => exact encInv_encSample h hexec
  | encFinish => exact encInv_encFinish h hexec
  | decInit => exact encInv_of_encView h (execDecInit_encView hexec)
  | decSample => exact encInv_of_encView h (execDecSample_encView hexec)

/-! ### The decoder session -/

/-- The decoder part speaks of nothing but the decoder's registers (R39). -/
theorem decInv_of_decRegs (h : DecInv s) (hregs : decRegs t = decRegs s) : DecInv t := by
  simp only [decRegs, Prod.mk.injEq] at hregs
  obtain ⟨hstate, herr, hprev, hpos, hlimit, hn, hdone, -, -, -, hcap⟩ := hregs
  obtain ⟨hiff, hkinds, hcursor, hlimitIn, hgroups, hspent, hidle, hactive, hcomplete⟩ := h
  constructor <;> simpa only [hstate, herr, hprev, hpos, hlimit, hn, hdone, hcap]

/-- A recorded error asks only for a sound cursor (R119). -/
theorem decInv_raise {c : ErrCode} (hcursor : s.rPos.toNat ≤ s.dLimit.toNat)
    (hlimit : s.dLimit.toNat % 8 = 0 ∧ s.dLimit.toNat ≤ 8 * s.capIn.toNat) (hgroups : s.rPos.toNat % 5 = 0)
    (hspent : 5 * s.dDone.toNat ≤ s.rPos.toNat ∧ s.rPos.toNat ≤ 45 * s.dDone.toNat)
    (hc : c ≠ .noError ∧ c ≠ .outputOverflow ∧ c ≠ .illegalCommand) : DecInv (s.raise .dec c) where
  errIffFailed := by simpa using hc.1
  errKinds := hc.2
  cursorInLimit := hcursor
  limitInIn := hlimit
  wholeGroups := hgroups
  bitsSpent := hspent
  idleZero := nofun
  activeCount := nofun
  completeCount := nofun

/-- A recorded error keeps the decoder part. -/
theorem decInv_beginCommand_raise (h : DecInv s) {c : ErrCode}
    (hc : c ≠ .noError ∧ c ≠ .outputOverflow ∧ c ≠ .illegalCommand) : DecInv (s.beginCommand.raise .dec c) :=
  decInv_raise (s := s.beginCommand) h.cursorInLimit h.limitInIn h.wholeGroups h.bitsSpent hc

/-- DEC_INIT puts the cursor at 0, within no limit where it raises (R112). -/
theorem decInv_decInitWrites_raise (s : State) {c : ErrCode}
    (hc : c ≠ .noError ∧ c ≠ .outputOverflow ∧ c ≠ .illegalCommand) :
    DecInv (s.beginCommand.decInitWrites.raise .dec c) :=
  decInv_raise (s := s.beginCommand.decInitWrites) le_rfl ⟨rfl, Nat.zero_le _⟩ rfl ⟨le_rfl, le_rfl⟩ hc

/-- A session of no samples is complete (R112). -/
theorem decInv_decInit_complete (h : s.arg.toInt = 0) :
    DecInv { s.beginCommand.decInitWrites with dState := .complete } where
  errIffFailed := by simp
  errKinds := by simp
  cursorInLimit := le_rfl
  limitInIn := ⟨rfl, Nat.zero_le _⟩
  wholeGroups := rfl
  bitsSpent := ⟨le_rfl, le_rfl⟩
  idleZero := nofun
  activeCount := nofun
  completeCount := fun _ => h.symm

/-- A started session has all of its input before it (R101, R112). -/
theorem decInv_decInit_active (h : 0 < s.arg.toInt) (hfit : s.inLen.toNat ≤ s.capIn.toNat) :
    DecInv { s.beginCommand.decInitWrites.brInit s.inLen with dState := .active } := by
  have hlimit : (BitVec.ofNat 64 (8 * s.inLen.toNat)).toNat = 8 * s.inLen.toNat := by
    have hlt := s.inLen.isLt
    rw [BitVec.toNat_ofNat, Nat.mod_eq_of_lt (by omega)]
  exact {
    errIffFailed := by simp
    errKinds := by simp
    cursorInLimit := Nat.zero_le _
    limitInIn := by
      simp only [brInit_dLimit, brInit_capIn, decInitWrites_capIn, beginCommand_capIn, hlimit]
      omega
    wholeGroups := rfl
    bitsSpent := ⟨le_rfl, le_rfl⟩
    idleZero := nofun
    activeCount := fun _ => h
    completeCount := nofun }

theorem decInv_decInit (hexec : exec .decInit s = .next t) : DecInv t := by
  obtain ⟨-, heq⟩ | ⟨hcount, heq⟩ | ⟨-, -, heq⟩ | ⟨hcount, hfit, heq⟩ := execDecInit_cases s <;>
    cases heq.symm.trans hexec
  · exact decInv_decInitWrites_raise s (by decide)
  · exact decInv_decInit_complete hcount
  · exact decInv_decInitWrites_raise s (by decide)
  · exact decInv_decInit_active hcount hfit

/-- A committed sample moves the cursor by 1 to 9 groups within D_LIMIT and the count by one within D_N (R30, R33). -/
theorem decInv_commitSample (h : DecInv s) (hactive : s.dState = .active) {k : Nat} (hk : 1 ≤ k ∧ k ≤ 9)
    (hfit : s.rPos.toNat + 5 * k ≤ s.dLimit.toNat) (x : Word) :
    DecInv (s.beginCommand.commitSample (s.rPos.toNat + 5 * k) x) := by
  obtain ⟨hiff, hkinds, -, hlimit, hgroups, hspent, -, hcount, -⟩ := h
  have hpos : (BitVec.ofNat 64 (s.rPos.toNat + 5 * k)).toNat = s.rPos.toNat + 5 * k := by
    have hlt := s.dLimit.isLt
    rw [BitVec.toNat_ofNat, Nat.mod_eq_of_lt (by omega)]
  have hlt := hcount hactive
  have hdone : (s.dDone + 1#32).toNat = s.dDone.toNat + 1 := by
    obtain ⟨-, hmax⟩ := sample_bounds s.dN
    have hone : (1#32 : Word).toNat = 1 := rfl
    rw [BitVec.toNat_add, hone, Nat.mod_eq_of_lt (by omega)]
  have herr : s.dErr = .noError := by
    by_contra hne
    simpa [hactive] using hiff.1 hne
  rw [commitSample_of_active hactive]
  constructor <;> simp only [hpos, hdone]
  · simp only [herr, ne_eq, not_true_eq_false, false_iff]
    split_ifs <;> decide
  · exact hkinds
  · exact hfit
  · exact hlimit
  · omega
  · omega
  · intro hidle
    split_ifs at hidle
  · intro hactive'
    split_ifs at hactive' with hall
    omega
  · intro hcomplete
    split_ifs at hcomplete with hall
    exact hall

theorem decInv_decSample (h : DecInv s) (hexec : exec .decSample s = .next t) : DecInv t := by
  cases execDecSample_cases s with
  | ignored _ heq => cases heq.symm.trans hexec; exact { h with }
  | sequence _ heq | range _ _ _ _ _ heq =>
    cases heq.symm.trans hexec
    exact decInv_beginCommand_raise h (by decide)
  | decodeError _ c hd heq =>
    cases heq.symm.trans hexec
    exact decInv_beginCommand_raise h (by rcases ngdDecode_raised_kinds hd with rfl | rfl <;> decide)
  | sample hactive u pos hd _ _ heq =>
    cases heq.symm.trans hexec
    obtain ⟨k, hk1, hk9, rfl, hfit⟩ := ngdDecode_ok_cursor hd
    exact decInv_commitSample h hactive ⟨hk1, hk9⟩ hfit _
  | unwritten _ _ _ heq => cases heq.symm.trans hexec

/-- Every command keeps the decoder part. -/
theorem exec_decInv (h : DecInv s) {i : Instr} (hexec : exec i s = .next t) : DecInv t := by
  cases i with
  | encInit => cases hexec; exact { h with }
  | encSample => exact decInv_of_decRegs h (execEncSample_decRegs hexec)
  | encFinish => exact decInv_of_decRegs h (execEncFinish_decRegs hexec)
  | decInit => exact decInv_decInit hexec
  | decSample => exact decInv_decSample h hexec

/-! ### The error fields -/

/-- A code that stays held keeps its bit, and a code newly held gets its bit (R37). -/
theorem errInv_of_errorsLogged (h : ErrInv s) (hlog : ErrorsLogged s t)
    (hcmd : t.cmdErr = .noError ∨ t.cmdErr = .illegalCommand) : ErrInv t := by
  obtain ⟨-, hmask, hlogged⟩ := h
  obtain ⟨hkept, hreserved, henc, hdec, hnew⟩ := hlog
  refine ⟨hcmd, hreserved.trans hmask, fun c hc hheld => ?_⟩
  rcases hheld with rfl | rfl | rfl
  · by_cases heq : t.eErr = s.eErr
    · exact hkept _ (hlogged _ hc (.inl heq))
    · exact henc heq hc
  · by_cases heq : t.dErr = s.dErr
    · exact hkept _ (hlogged _ hc (.inr (.inl heq)))
    · exact hdec heq hc
  · by_cases heq : t.cmdErr = s.cmdErr
    · exact hkept _ (hlogged _ hc (.inr (.inr heq)))
    · exact hnew heq hc

/-! ### The memories -/

/-- ENC_SAMPLE writes within OUT and keeps its form (R40, R110). -/
theorem memInv_sampleWritten (h : MemInv s) (hroom : HasRoom s) : MemInv s.sampleWritten := by
  have hcap : s.wPos.toNat + 5 * sampleCount s ≤ 8 * s.capOut.toNat := (room_of_capacity hroom).1
  refine { h with
    canonical := ⟨h.canonical.1, (sampleWriter_spec s hroom).wf h.canonical.2⟩
    inRange := ⟨h.inRange.1, fun c hc => ?_⟩ }
  obtain hold | hnew := sampleWriter_mem hroom hc
  · exact h.inRange.2 c hold
  · have hlt : 8 * c.1 < 8 * s.capOut.toNat := hnew.trans_le hcap
    exact Nat.lt_of_mul_lt_mul_left hlt

/-- Only ENC_SAMPLE writes a memory, and only where it has room. -/
theorem exec_memInv (h : MemInv s) {i : Instr} (hexec : exec i s = .next t) : MemInv t := by
  cases i with
  | encInit => cases hexec; exact { h with }
  | encSample =>
    cases execEncSample_cases s with
    | ignored _ heq | sequence _ heq | range _ _ heq | overflow _ _ heq => cases heq.symm.trans hexec; exact { h with }
    | wrote _ _ hroom heq => cases heq.symm.trans hexec; exact memInv_sampleWritten h hroom
  | encFinish =>
    obtain ⟨-, heq⟩ | ⟨-, heq⟩ | ⟨-, heq⟩ := execEncFinish_cases s <;> cases heq.symm.trans hexec <;> exact { h with }
  | decInit =>
    obtain ⟨hrest, -⟩ := execDecInit_frame hexec
    rw [hrest]
    exact { h with }
  | decSample =>
    obtain ⟨hrest, -⟩ := execDecSample_frame hexec
    rw [hrest]
    exact { h with }

/-- A host write within IN keeps the memories and marks a byte that is written (R40, R50). -/
theorem memInv_hostWriteIn (h : MemInv s) {j : Nat} (hj : j < s.capIn.toNat) (b : Byte) : MemInv (s.hostWriteIn j b) := by
  refine { h with
    canonical := ⟨Memory.write_wf h.canonical.1 j b, h.canonical.2⟩
    inRange := ⟨fun c hc => ?_, h.inRange.2⟩
    recordRising := insertIndex_pairwise h.recordRising j
    recordWritten := fun i hi => ?_ }
  · obtain rfl | hold := Memory.mem_write hc
    · exact hj
    · exact h.inRange.1 c hold
  · rw [hostWriteIn_inMem, Memory.read_write]
    split_ifs with hij
    · rfl
    · exact h.recordWritten i ((mem_insertIndex.1 hi).resolve_left hij)

/-! ### Reset and the steps -/

/-- Reset leaves no encoder session and no bit written (R132). -/
theorem encInv_resetWith (inCap outCap : Word) : EncInv (State.resetWith inCap outCap) where
  errIffFailed := by simp [State.resetWith]
  errKinds := .inl rfl
  cursorInOut := Nat.zero_le _
  wholeGroups := rfl
  partialClean := partialByteClean_of_no_bits rfl
  idleZero := fun _ => ⟨rfl, rfl, rfl⟩
  openLen := nofun
  closedLen := nofun
  lenInOut := Nat.zero_le _

/-- Reset leaves no decoder session (R132). -/
theorem decInv_resetWith (inCap outCap : Word) : DecInv (State.resetWith inCap outCap) where
  errIffFailed := by simp [State.resetWith]
  errKinds := by simp [State.resetWith]
  cursorInLimit := le_rfl
  limitInIn := ⟨rfl, Nat.zero_le _⟩
  wholeGroups := rfl
  bitsSpent := ⟨le_rfl, le_rfl⟩
  idleZero := fun _ => ⟨rfl, rfl, rfl, rfl, rfl⟩
  activeCount := nofun
  completeCount := nofun

/-- Reset leaves no error held or logged (R132). -/
theorem errInv_resetWith (inCap outCap : Word) : ErrInv (State.resetWith inCap outCap) where
  cmdKinds := .inl rfl
  logMask := BitVec.zero_and
  logged c hc hheld := absurd hheld (by simp [State.resetWith, hc])

/-- The invariant holds after reset, for capacities that are not 0 (R9, R132). -/
theorem inv_resetWith {inCap outCap : Word} (hin : inCap ≠ 0#32) (hout : outCap ≠ 0#32) :
    Inv (State.resetWith inCap outCap) where
  enc := encInv_resetWith inCap outCap
  dec := decInv_resetWith inCap outCap
  err := errInv_resetWith inCap outCap
  mem := {
    caps := ⟨hin, hout⟩
    canonical := ⟨Memory.nil_wf, Memory.nil_wf⟩
    inRange := ⟨nofun, nofun⟩
    recordRising := List.Pairwise.nil
    recordWritten := nofun }

/-- Reset keeps the memories and starts the rest anew (R131). -/
theorem inv_afterReset (h : MemInv s) : Inv s.afterReset where
  enc := { encInv_resetWith s.capIn s.capOut with partialClean := partialByteClean_of_no_bits rfl }
  dec := { decInv_resetWith s.capIn s.capOut with }
  err := { errInv_resetWith s.capIn s.capOut with }
  mem := { h with
    recordRising := List.Pairwise.nil
    recordWritten := nofun }

/-- Taking an access from the host's list leaves the block as it is. -/
theorem inv_hostOps (h : Inv s) (ops : List HostOp) : Inv { s with hostOps := ops } where
  enc := { h.enc with }
  dec := { h.dec with }
  err := { h.err with }
  mem := { h.mem with }

/-- Every command keeps the invariant. -/
theorem exec_inv (h : Inv s) {i : Instr} (hexec : exec i s = .next t) : Inv t where
  enc := exec_encInv h.enc hexec
  dec := exec_decInv h.dec hexec
  err := errInv_of_errorsLogged h.err (exec_errorsLogged hexec) (.inl (exec_cmdErr hexec))
  mem := exec_memInv h.mem hexec

/-- An illegal command word touches only the error fields (R120). -/
theorem inv_raiseIllegalCommand (h : Inv s) : Inv s.raiseIllegalCommand where
  enc := { h.enc with }
  dec := { h.dec with }
  err := errInv_of_errorsLogged h.err
    (errorsLogged_of_logged (c := .illegalCommand) (by decide) rfl (.inl rfl) (.inl rfl) (.inr (.inr rfl))) (.inr rfl)
  mem := { h.mem with }

/-- Every step keeps the invariant. -/
theorem step_inv (h : Inv s) (hstep : step s = .next t) : Inv t := by
  cases step_cases hstep with
  | idle _ heq => exact heq ▸ h
  | command w ops i _ _ hexec => exact exec_inv (inv_hostOps h ops) hexec
  | illegal w ops e _ _ heq => exact heq ▸ inv_raiseIllegalCommand (inv_hostOps h ops)
  | write off v ops _ _ heq =>
    rw [writeOffset_eq] at heq
    subst heq
    exact ⟨{ h.enc with }, { h.dec with }, { h.err with }, { h.mem with }⟩
  | read op ops o _ heq =>
    subst heq
    exact ⟨{ h.enc with }, { h.dec with }, { h.err with }, { h.mem with }⟩
  | input j b ops _ hj heq =>
    have hmem : MemInv { s with hostOps := ops } := { h.mem with }
    subst heq
    exact ⟨{ h.enc with }, { h.dec with }, { h.err with }, memInv_hostWriteIn hmem hj b⟩
  | reset ops _ heq => exact heq ▸ inv_afterReset (inv_hostOps h ops).mem

end Invariant

end Sys2Proof.Machine
end

section
/-!
PROOF. The invariant holds at reset and every step keeps it (10_state.md sections 4 to 7, 20_memory.md, R97).
-/

namespace Sys2Proof.Machine

/-- Settles O3, part by part. -/
theorem invariantHoldsAtReset : Obligations.InvariantHoldsAtReset :=
  fun _ _ => inv_resetWith

/-- Settles O4, by the host's next access; a command keeps each part of the invariant. -/
theorem stepKeepsInvariant : Obligations.StepKeepsInvariant :=
  fun _ _ h hstep => step_inv h hstep

end Sys2Proof.Machine
end
